-- ==== Sys2Proof/Word.lean ====
section
/-! DEFINITION. The byte and the packet: the two kinds of value the block handles (`spec/00_scope.md` section 5).
A packet is any 18 bytes; nothing else is required of one (`spec/90_conflicts.md` C11). -/

namespace Sys2Proof

/-- A byte: eight bits, unsigned, bit 7 the most significant (00_scope section 5). -/
abbrev Byte := BitVec 8

/-- A packet: a byte sequence of length exactly 18, first byte sent first (R1, R32, R50).
A wrong checksum or a length byte above 16 is still a packet (00_scope section 5, R58). -/
structure Packet where
  bytes : List Byte
  size : bytes.length = 18
  deriving DecidableEq, Repr

end Sys2Proof
end

