-- ==== Sys2Proof/Config.lean ====
section
/-! DEFINITION. The constants of `spec/00_scope.md` rules R1 to R7 and the open parameters of rules R8 and R9.
The constants are taken as the document states them (D32); none is programmable (R21). -/

namespace Sys2Proof

/-- `PKT_LEN` (R1). -/
abbrev pktLen : Nat := 18

/-- `BODY_LEN`, what the checksum covers (R1). -/
abbrev bodyLen : Nat := 17

/-- `PAYLOAD_MAX`, and the host's `CHUNK` (R1, R7). -/
abbrev payloadMax : Nat := 16

/-- `PAD`: 0xFF, never 0x00 (R2, C1). -/
abbrev padByte : Byte := 0xFF#8

/-- `POLY` (R3). -/
abbrev poly : Byte := 0x07#8

/-- `INIT` (R3, R14). -/
abbrev crcInit : Byte := 0x00#8

/-- `ACK_BYTE` (R4); not the ASCII value (C8). -/
abbrev ackByte : Byte := 0x19#8

/-- `RETX_BYTE` (R4). -/
abbrev retxByte : Byte := 0x15#8

/-- `SYNC`, first byte sent first (R5). -/
abbrev syncMarker : List Byte := [0xAA#8, 0xBB#8, 0xCC#8, 0xDD#8]

/-- `DEVICE_ID`, a host constant (R6). -/
abbrev deviceId : Byte := 0x52#8

/-- The nine protocol opcodes of rule R8: names without a value in any source (D22, N5). -/
structure Opcodes where
  seqObserved : Byte
  updateReq : Byte
  updateRes : Byte
  deviceIdReq : Byte
  deviceIdRes : Byte
  fwLengthReq : Byte
  fwLengthRes : Byte
  readyForData : Byte
  updateSuccess : Byte
  deriving DecidableEq, Repr, Inhabited

/-- The nine values, in the order of rule R8's table. -/
def Opcodes.toList (o : Opcodes) : List Byte :=
  [o.seqObserved, o.updateReq, o.updateRes, o.deviceIdReq, o.deviceIdRes, o.fwLengthReq,
    o.fwLengthRes, o.readyForData, o.updateSuccess]

/-- Rule R9: pairwise distinct, and none equals `ACK_BYTE` or `RETX_BYTE`. -/
def Opcodes.wf (o : Opcodes) : Bool :=
  decide o.toList.Nodup && o.toList.all fun b => b != ackByte && b != retxByte

/-- Nine bytes nothing constrains: the free value behind `Config.opcodes` (D22, log entry 4). -/
opaque Config.rawOpcodes : Opcodes

/-- The opcodes of the machine at reset: any nine bytes that meet rule R9, and nothing says which.
DESIGN CHOICE (log entry 4): where the unconstrained nine break rule R9 a fixed lawful nine stands in, so that
rule R9 can be proved of the whole while no value of any opcode can. -/
def Config.opcodes : Opcodes :=
  if Config.rawOpcodes.wf then Config.rawOpcodes
  else ⟨0x01#8, 0x02#8, 0x03#8, 0x04#8, 0x05#8, 0x06#8, 0x07#8, 0x08#8, 0x09#8⟩

/-- The open parameters of rule R8, which a run takes as arguments: `qdepth` is `QDEPTH`, with `none` for ∞. -/
structure Cfg where
  qdepth : Option Nat
  ops : Opcodes
  deriving DecidableEq, Repr

/-- The constraints of rule R8 and rule R9 on the parameters: `1 ≤ QDEPTH ≤ ∞`, and lawful opcodes. -/
def Cfg.wf (c : Cfg) : Bool :=
  (match c.qdepth with
    | none => true
    | some n => decide (1 ≤ n)) && c.ops.wf

/-- The parameters at reset: `QDEPTH` at its default ∞ (R8, D9), the opcodes open. -/
def Config.default : Cfg := { qdepth := none, ops := Config.opcodes }

end Sys2Proof
end

