-- ==== Sys2Proof/Machine/Operands.lean ====
section
/-! DEFINITION. The codec's pure functions and the assembly of every operand: CRC-8, the packet built from a
payload, the check of a packet, packet classes, big-endian lengths, firmware chunks
(`spec/41_codec.md`, `spec/30_encoding.md` section 2). -/

namespace Sys2Proof.Machine

/-- One round of rule R71: bit 7 is tested before the shift, the shift drops it, POLY is XORed after. -/
def crcRound (c : Byte) : Byte :=
  if c &&& 0x80#8 ≠ 0#8 then (c <<< 1) ^^^ poly else c <<< 1

/-- `n` rounds. -/
def crcRounds : Nat → Byte → Byte
  | 0, c => c
  | n + 1, c => crcRounds n (crcRound c)

/-- `crc_byte(c, b)` of rule R71. -/
def crcByte (c b : Byte) : Byte := crcRounds 8 (c ^^^ b)

/-- `crc8(s)` of rule R70: the left fold of `crcByte` from INIT, no final XOR. -/
def crc8 (s : List Byte) : Byte := s.foldl crcByte crcInit

/-- The first 17 bytes of a built packet: length byte, payload, padding (R51, R73). -/
def packetBody (s : List Byte) : List Byte :=
  BitVec.ofNat 8 s.length :: (s ++ List.replicate (payloadMax - s.length) padByte)

/-- The 18 bytes BUILD makes of a payload of at most 16 bytes: the body and its checksum (R73). -/
def buildBytes (s : List Byte) : List Byte := packetBody s ++ [crc8 (packetBody s)]

theorem packetBody_length (s : List Byte) (h : s.length ≤ payloadMax) :
    (packetBody s).length = bodyLen := by
  simp only [packetBody, payloadMax, bodyLen, List.length_cons, List.length_append,
    List.length_replicate] at *
  omega

/-- The packet of a payload of at most 16 bytes (R73). -/
def mkPacket (s : List Byte) (h : s.length ≤ payloadMax) : Packet where
  bytes := buildBytes s
  size := by simp [buildBytes, packetBody_length s h]

/-- BUILD as a function: no packet when the payload is longer than 16 bytes (R73, R75). -/
def buildPacket (s : List Byte) : Option Packet :=
  if h : s.length ≤ payloadMax then some (mkPacket s h) else none

/-- `BUILD([b])`: the reference packet the host compares with (R126, D23). -/
def opPacket (b : Byte) : Packet := mkPacket [b] (by simp [payloadMax])

/-- `ACK_PKT` (R53). -/
def ackPkt : Packet := opPacket ackByte

/-- `RETX_PKT` (R54). -/
def retxPkt : Packet := opPacket retxByte

/-- A byte sequence read as a packet, where it is one. -/
def toPacket (s : List Byte) : Option Packet :=
  if h : s.length = pktLen then some ⟨s, h⟩ else none

/-- VALIDATE as a function (R76): 18 bytes, and the last is the CRC-8 of the first 17. -/
def validates (s : List Byte) : Bool :=
  s.length == pktLen && s[17]? == some (crc8 (s.take bodyLen))

/-- The length byte `p[0]` as a number (R50). -/
def lengthByte (p : Packet) : Nat := (p.bytes.headD 0#8).toNat

/-- `payload_of(p) = p[1 .. 1 + p[0])` (R51). -/
def payloadOf (p : Packet) : List Byte := (p.bytes.drop 1).take (lengthByte p)

/-- `wf(p)` (R62): length byte at most 16, padding 0xFF, checksum of the first 17 bytes. -/
def wellFormedPacket (p : Packet) : Bool :=
  decide (lengthByte p ≤ payloadMax) &&
    ((p.bytes.take bodyLen).drop (1 + lengthByte p)).all (· == padByte) &&
    p.bytes[17]? == some (crc8 (p.bytes.take bodyLen))

/-- The three classes of rule R52. -/
inductive PacketClass where
  | ack
  | retx
  | other
  deriving DecidableEq, Repr

/-- `classify(p)` (R79): equality of all 18 bytes with a control packet, nothing less (R78, D24). -/
def classify (p : Packet) : PacketClass :=
  if p = ackPkt then .ack else if p = retxPkt then .retx else .other

/-- `be32(n)` (00_scope section 5): four bytes, most significant first (R34). -/
def be32 (n : Nat) : List Byte :=
  [BitVec.ofNat 8 (n / 2 ^ 24), BitVec.ofNat 8 (n / 2 ^ 16), BitVec.ofNat 8 (n / 2 ^ 8), BitVec.ofNat 8 n]

/-- The 32-bit number four bytes spell, most significant first: the inverse of `be32` on 32 bits. -/
def ofBe32 : List Byte → BitVec 32
  | [a, b, c, d] => a ++ b ++ c ++ d
  | _ => 0#32

/-- `FW[off .. off + n)` with `n = min(16, |FW| - off)` (R137, R138). -/
def fwChunkAt (fw : List Byte) (off : Nat) : List Byte := (fw.drop off).take payloadMax

/-- Payload of Device-ID-Response (R56, R133). -/
def deviceIdPayload (o : Opcodes) : List Byte := [o.deviceIdRes, deviceId]

/-- Payload of Firmware-Length-Response with length field `len` (R56, R135). -/
def fwLengthPayload (o : Opcodes) (len : BitVec 32) : List Byte := o.fwLengthRes :: be32 len.toNat

end Sys2Proof.Machine
end

