-- ==== Sys2Proof/Syntax.lean ====
section
/-! DEFINITION. The instructions: one constructor per row of `spec/opcode_table.json`, and the names the rows use
(the host's states, the readers of an encoding). -/

namespace Sys2Proof

/-- `HST`: the ten states of the document's table and its two outcomes (R17, 44_host_sequencer section 2).
The names are labels; what a state does is in its rule (C5). -/
inductive HostState where
  | sync
  | sendUpdateReq
  | waitForUpdateRes
  | deviceIdReq
  | deviceIdRes
  | fwLengthReq
  | fwLengthRes
  | eraseApplication
  | receiveFirmware
  | updateSuccess
  | done
  | failed
  deriving DecidableEq, Repr

/-- The operations of the block, its packet classes, the marker, the host's packets and the host's
pseudo-operations: the 27 rows of `spec/opcode_table.json`. -/
inductive Instr where
  /-- CRC8 of a byte sequence (R70). -/
  | crc8 (s : List Byte)
  /-- BUILD of a payload (R73). -/
  | build (s : List Byte)
  /-- VALIDATE of a byte sequence (R76). -/
  | validate (s : List Byte)
  /-- TAKE (R94). -/
  | take
  /-- TRANSMIT of the operand's bytes; an operand is a packet, so 18 bytes (R105, D12). -/
  | transmit (p : List Byte)
  /-- WRITERAW of a byte sequence (R111). -/
  | writeraw (s : List Byte)
  /-- RXCHUNK: arrival of an inbound chunk (R90). -/
  | rxchunk (chunk : List Byte)
  /-- EMIT, the framer's internal step (R91). -/
  | emit
  /-- WAITSTEP, the controller's step (R106). -/
  | waitstep
  /-- PKT.ACK: the packet taken from the queue is `ACK_PKT` (R52, R53). -/
  | pktAck
  /-- PKT.RETX: the packet taken from the queue is `RETX_PKT` (R52, R54). -/
  | pktRetx
  /-- PKT.OTHER: the packet taken from the queue is `p`, neither control packet (R52). -/
  | pktOther (p : List Byte)
  /-- SYNC: the marker goes out, unframed (R5, R55, R129). -/
  | sync
  /-- HOSTPKT.SEQ_OBSERVED, inbound, awaited in Sync (R129). -/
  | hostSeqObserved
  /-- HOSTPKT.UPDATE_REQ, inbound, awaited in SendUpdateReq (R130). -/
  | hostUpdateReq
  /-- HOSTPKT.UPDATE_RES, outbound, sent in WaitForUpdateRes (R131). -/
  | hostUpdateRes
  /-- HOSTPKT.DEVICE_ID_REQ, inbound, awaited in DeviceIDReq (R132). -/
  | hostDeviceIdReq
  /-- HOSTPKT.DEVICE_ID_RES, outbound, sent in DeviceIDRes (R133). -/
  | hostDeviceIdRes
  /-- HOSTPKT.FW_LENGTH_REQ, inbound, awaited in FwLengthReq (R134). -/
  | hostFwLengthReq
  /-- HOSTPKT.FW_LENGTH_RES with its 32-bit length field, outbound, sent in FwLengthRes (R135). -/
  | hostFwLengthRes (len : BitVec 32)
  /-- HOSTPKT.READY_FOR_DATA, inbound, awaited in EraseApplication, expected in ReceiveFirmware (R136, R137). -/
  | hostReadyForData
  /-- HOSTPKT.FW_CHUNK with its 1 to 16 chunk bytes, outbound, sent in ReceiveFirmware (R137, R138). -/
  | hostFwChunk (chunk : List Byte)
  /-- HOSTPKT.UPDATE_SUCCESS, inbound, awaited in UpdateSuccess (R140). -/
  | hostUpdateSuccess
  /-- SENDSYNC (R60, R129). -/
  | sendsync
  /-- SENDACKED of a payload (R60, R127). -/
  | sendacked (s : List Byte)
  /-- AWAIT an opcode (R60, R126). -/
  | await (op : Byte)
  /-- EXPECT an opcode (R60, R128). -/
  | expect (op : Byte)
  deriving DecidableEq, Repr

/-- Who reads an encoding: the same 18 bytes mean one thing to the controller and another to the host (R52, R56,
`30_encoding.md` section 3), so a decoder is told for whom it decodes. -/
inductive Reader where
  /-- The block, on the CMD port (R57). -/
  | cmdPort
  /-- The controller, on a packet it takes (R52). -/
  | controller
  /-- The host, on a packet it takes (R126, R128). -/
  | hostIn
  /-- The outbound wire, on a unit the host sends in state `h` (R55, R56). -/
  | wireOut (h : HostState)
  deriving DecidableEq, Repr

end Sys2Proof
end

