-- ==== Sys2Proof/WellFormed.lean ====
section
/-! DEFINITION. Which terms of `Instr` are instructions: the operand constraints of `spec/opcode_table.json`. -/

namespace Sys2Proof

/-- TRANSMIT's operand is exactly 18 bytes (R105, D12). -/
def Instr.operandIsPacket : Instr → Bool
  | .transmit p => p.length == pktLen
  | .pktOther p => p.length == pktLen
  | _ => true

/-- PKT.OTHER matches only when PKT.ACK and PKT.RETX do not (R52, the row's priority). -/
def Instr.classIsOther : Instr → Bool
  | .pktOther p => p != Machine.ackPkt.bytes && p != Machine.retxPkt.bytes
  | _ => true

/-- HOSTPKT.FW_CHUNK carries 1 to 16 bytes (the row's constraint, R138). -/
def Instr.chunkInRange : Instr → Bool
  | .hostFwChunk c => decide (1 ≤ c.length) && decide (c.length ≤ payloadMax)
  | _ => true

/-- A term that stands for an instruction of the table. -/
def Instr.wellFormed (i : Instr) : Bool :=
  i.operandIsPacket && i.classIsOther && i.chunkInRange

end Sys2Proof
end

