-- ==== Sys2Proof/Decode.lean ====
section
/-! DEFINITION. From bytes to instructions and back: the command format CMD and the wire formats PKT18 and RAW4
(`spec/30_encoding.md` section 1). Decoding is total and rejects by name; an encoder follows it. -/

namespace Sys2Proof

/-- Why bytes are no instruction. -/
inductive DecodeError where
  /-- A CMD transaction without a code byte. -/
  | noCode
  /-- An unassigned command code: "the block refuses the command" (R57). -/
  | unassignedCode (code : Byte)
  /-- Operand bytes after a code whose operand is none (R57, TAKE). -/
  | operandNotAllowed (n : Nat)
  /-- A sequence of other than 18 bytes where a packet belongs (R57, R105, D12). -/
  | notAPacket (n : Nat)
  /-- An outbound unit that is neither the marker nor a layout the host sends in its state (R55, R56). -/
  | notAWireUnit
  deriving DecidableEq, Repr

/-- The command format (R57): one code byte, then the operand, in one transaction of the CMD port (R24). -/
def decodeCmd : List Byte → Except DecodeError Instr
  | [] => .error .noCode
  | code :: operand =>
    if code = 0x01#8 then .ok (.crc8 operand)
    else if code = 0x02#8 then .ok (.build operand)
    else if code = 0x03#8 then .ok (.validate operand)
    else if code = 0x04#8 then
      if operand = [] then .ok .take else .error (.operandNotAllowed operand.length)
    else if code = 0x05#8 then
      if operand.length = pktLen then .ok (.transmit operand) else .error (.notAPacket operand.length)
    else if code = 0x06#8 then .ok (.writeraw operand)
    else .error (.unassignedCode code)

/-- What the block decodes an inbound packet into: the three classes of rule R52, and no more. -/
def decodePacket (q : Packet) : Instr :=
  match Machine.classify q with
  | .ack => .pktAck
  | .retx => .pktRetx
  | .other => .pktOther q.bytes

/-- What the host makes of a packet it takes: one of the six inbound layouts, by equality with a packet it builds
itself (R56, R126, D23), else what the packet is to the block. -/
def decodeHostIn (o : Opcodes) (q : Packet) : Instr :=
  if q = Machine.opPacket o.seqObserved then .hostSeqObserved
  else if q = Machine.opPacket o.updateReq then .hostUpdateReq
  else if q = Machine.opPacket o.deviceIdReq then .hostDeviceIdReq
  else if q = Machine.opPacket o.fwLengthReq then .hostFwLengthReq
  else if q = Machine.opPacket o.readyForData then .hostReadyForData
  else if q = Machine.opPacket o.updateSuccess then .hostUpdateSuccess
  else decodePacket q

/-- The outbound layout of host state `h` (R56, R131, R133, R135, R138): each is sent in one state only. DESIGN CHOICE
(log entry 26): a unit that is not the layout of its state reads as none, although TRANSMIT would send its bytes. -/
def decodeHostOut (o : Opcodes) (h : HostState) (q : Packet) : Except DecodeError Instr :=
  match h with
  | .waitForUpdateRes =>
    if q = Machine.opPacket o.updateRes then .ok .hostUpdateRes else .error .notAWireUnit
  | .deviceIdRes =>
    if some q = Machine.buildPacket (Machine.deviceIdPayload o) then .ok .hostDeviceIdRes
    else .error .notAWireUnit
  | .fwLengthRes =>
    let len := Machine.ofBe32 ((q.bytes.drop 2).take 4)
    if some q = Machine.buildPacket (Machine.fwLengthPayload o len) then .ok (.hostFwLengthRes len)
    else .error .notAWireUnit
  | .receiveFirmware =>
    if Machine.wellFormedPacket q && decide (1 ≤ Machine.lengthByte q) then
      .ok (.hostFwChunk (Machine.payloadOf q))
    else .error .notAWireUnit
  | _ => .error .notAWireUnit

/-- An outbound unit the host hands to the transport: RAW4 or PKT18, the only two wire formats (R50, R55). -/
def decodeWire (o : Opcodes) (h : HostState) (bs : List Byte) : Except DecodeError Instr :=
  if bs = syncMarker then .ok .sync
  else match Machine.toPacket bs with
    | some q => decodeHostOut o h q
    | none => .error .notAWireUnit

/-- The decoder, told for whom the bytes are. -/
def decode (o : Opcodes) (r : Reader) (bs : List Byte) : Except DecodeError Instr :=
  match r with
  | .cmdPort => decodeCmd bs
  | .controller =>
    match Machine.toPacket bs with
    | some q => .ok (decodePacket q)
    | none => .error (.notAPacket bs.length)
  | .hostIn =>
    match Machine.toPacket bs with
    | some q => .ok (decodeHostIn o q)
    | none => .error (.notAPacket bs.length)
  | .wireOut h => decodeWire o h bs

/-! ## The encoder -/

/-- The bytes of BUILD, none for a payload longer than 16 bytes. -/
def packetBytes (s : List Byte) : Option (List Byte) := (Machine.buildPacket s).map Packet.bytes

/-- The bytes of an instruction (R53 to R57), none for the EVENT and PSEUDO rows, which have no bit pattern. -/
def encode (o : Opcodes) : Instr → Option (List Byte)
  | .crc8 s => some (0x01#8 :: s)
  | .build s => some (0x02#8 :: s)
  | .validate s => some (0x03#8 :: s)
  | .take => some [0x04#8]
  | .transmit p => some (0x05#8 :: p)
  | .writeraw s => some (0x06#8 :: s)
  | .rxchunk _ => none
  | .emit => none
  | .waitstep => none
  | .pktAck => packetBytes [ackByte]
  | .pktRetx => packetBytes [retxByte]
  | .pktOther p => some p
  | .sync => some syncMarker
  | .hostSeqObserved => packetBytes [o.seqObserved]
  | .hostUpdateReq => packetBytes [o.updateReq]
  | .hostUpdateRes => packetBytes [o.updateRes]
  | .hostDeviceIdReq => packetBytes [o.deviceIdReq]
  | .hostDeviceIdRes => packetBytes (Machine.deviceIdPayload o)
  | .hostFwLengthReq => packetBytes [o.fwLengthReq]
  | .hostFwLengthRes len => packetBytes (Machine.fwLengthPayload o len)
  | .hostReadyForData => packetBytes [o.readyForData]
  | .hostFwChunk c => packetBytes c
  | .hostUpdateSuccess => packetBytes [o.updateSuccess]
  | .sendsync => none
  | .sendacked _ => none
  | .await _ => none
  | .expect _ => none

/-- Who reads the encoding of an instruction. -/
def reader : Instr → Option Reader
  | .crc8 _ => some .cmdPort
  | .build _ => some .cmdPort
  | .validate _ => some .cmdPort
  | .take => some .cmdPort
  | .transmit _ => some .cmdPort
  | .writeraw _ => some .cmdPort
  | .rxchunk _ => none
  | .emit => none
  | .waitstep => none
  | .pktAck => some .controller
  | .pktRetx => some .controller
  | .pktOther _ => some .controller
  | .sync => some (.wireOut .sync)
  | .hostSeqObserved => some .hostIn
  | .hostUpdateReq => some .hostIn
  | .hostUpdateRes => some (.wireOut .waitForUpdateRes)
  | .hostDeviceIdReq => some .hostIn
  | .hostDeviceIdRes => some (.wireOut .deviceIdRes)
  | .hostFwLengthReq => some .hostIn
  | .hostFwLengthRes _ => some (.wireOut .fwLengthRes)
  | .hostReadyForData => some .hostIn
  | .hostFwChunk _ => some (.wireOut .receiveFirmware)
  | .hostUpdateSuccess => some .hostIn
  | .sendsync => none
  | .sendacked _ => none
  | .await _ => none
  | .expect _ => none

/-! ## The words of the opcode table -/

/-- The `n` bytes of the table's number `w`, the most significant first: a wire unit is written in the table with
its first byte on top (R50, `opcode_table.json`). -/
def bytesOfTable : Nat → Nat → List Byte
  | 0, _ => []
  | n + 1, w => BitVec.ofNat 8 (w / 2 ^ (8 * n)) :: bytesOfTable n w

/-- A CMD word of the table laid out as a transaction: the code, then the shortest operand the code takes, all
bits zero (eighteen bytes for TRANSMIT, none for the others, R57). -/
def layOutCmd (w : Nat) : List Byte :=
  BitVec.ofNat 8 w :: (if w = 5 then List.replicate pktLen 0#8 else [])

/-- The decoder on the table's numbers: 8 bits a command code, 32 bits the RAW4 unit, 144 bits a packet as the
block reads it (R50, R52, R55, R57). -/
def decodeTableWord (nbits w : Nat) : Option Instr :=
  if nbits = 8 then
    if w < 2 ^ 8 then (decodeCmd (layOutCmd w)).toOption else none
  else if nbits = 32 then
    if w < 2 ^ 32 ∧ bytesOfTable 4 w = syncMarker then some .sync else none
  else if nbits = 144 then
    if w < 2 ^ 144 then (Machine.toPacket (bytesOfTable 18 w)).map decodePacket else none
  else none

end Sys2Proof
end

