-- ==== Sys2Proof/Machine/State.lean ====
section
/-! DEFINITION. The state of the machine as plain data: the block (R10 to R15), the host (R17), the ports (R24), the
parameters of the run (R8), and the schedule of what happens next. There is no addressable memory, no register file
and no program counter (R18, R19, R30). -/

namespace Sys2Proof.Machine

/-- `TXS` (R13): `idle`, no TRANSMIT outstanding; `wait`, a TRANSMIT has not yet seen `ACK_PKT`. -/
inductive TxState where
  | idle
  | wait
  deriving DecidableEq, Repr

/-- The host's outstanding receive: TAKE, or the TAKEs inside AWAIT and EXPECT, held while RXQ is empty
(R95, R126, R128, R170). -/
inductive Pend where
  | take
  | await (op : Byte)
  | expect (op : Byte)
  deriving DecidableEq, Repr

/-- A fault the host receives as the completion of its operation, by name (R150, R151, R156, D25). -/
inductive RaisedFault where
  /-- BUILD with a payload of `len > 16` bytes (R75). -/
  | contractViolation (len : Nat)
  deriving DecidableEq, Repr

/-- What the RSP port carries: the completion of the operation last issued (R24). -/
inductive Reply where
  /-- CRC8's byte. -/
  | byte (b : Byte)
  /-- BUILD's or TAKE's packet. -/
  | packet (p : Packet)
  /-- VALIDATE's boolean. -/
  | bool (b : Bool)
  /-- Completion without a result: TRANSMIT, WRITERAW, and AWAIT (DESIGN CHOICE, log entry 25). -/
  | done
  /-- EXPECT found its packet (R128; on RSP by DESIGN CHOICE, log entry 25). -/
  | ok
  /-- EXPECT found another packet (R128; on RSP by DESIGN CHOICE, log entry 25). -/
  | mismatch
  /-- The operation ended in a fault (R150). -/
  | fault (f : RaisedFault)
  deriving DecidableEq, Repr

/-- Where the host stands inside the action of its state: the "then" of rules R129 to R140. -/
inductive Phase where
  /-- No session has been started (R125). -/
  | unstarted
  /-- The state's first operation is still to be issued. -/
  | ready
  /-- Sync only: the marker is written, the AWAIT still to be issued (R129). -/
  | marked
  /-- The state's TRANSMIT has been issued; its completion is not yet acted on (R127). -/
  | sending
  /-- ReceiveFirmware only: a chunk is acknowledged, the EXPECT still to be issued (R137). -/
  | acked
  /-- The state's AWAIT or EXPECT is outstanding. -/
  | waiting
  deriving DecidableEq, Repr

/-- The operation the host's session issues next (R129 to R140). -/
inductive SessionOp where
  /-- Write the sync marker (R129). -/
  | mark
  /-- SENDACKED of a payload (R127). -/
  | send (payload : List Byte)
  /-- AWAIT or EXPECT (R126, R128). -/
  | receive (w : Pend)
  deriving DecidableEq, Repr

/-- A progress report of the host (R141): a state transition, the one to `done` or `failed` being the success or
failure signal (R143), or the bytes that remain during the transfer. Its form is in no source (log entry 8). -/
inductive Report where
  | moved (h : HostState)
  | remaining (n : Nat)
  deriving DecidableEq, Repr

/-- One entry of the schedule: a transaction on a port (R24), an operation the host performs by name (R60), or an
agent given its turn. A list of these is a program in the line syntax of rule R59. -/
inductive Event where
  /-- `CMD`: an operation code and its operand (R57). -/
  | cmd (bytes : List Byte)
  /-- `RX`: an inbound chunk (R90, R154). -/
  | rx (chunk : List Byte)
  /-- `RST`: the reset event (R170). -/
  | rst
  /-- The host hands an outbound unit of a wire format to be sent (R50, R55, R56). -/
  | wire (bytes : List Byte)
  /-- The host performs SENDSYNC (R60). -/
  | sendsync
  /-- The host performs SENDACKED (R60). -/
  | sendacked (s : List Byte)
  /-- The host performs AWAIT (R60). -/
  | await (op : Byte)
  /-- The host performs EXPECT (R60). -/
  | expect (op : Byte)
  /-- A session starts with this firmware image (R125). -/
  | start (fw : List Byte)
  /-- The framer's turn (R91). -/
  | framer
  /-- The controller's turn (R106). -/
  | ctl
  /-- The host's turn: its outstanding receive, or its session's next operation (R125). -/
  | host
  deriving DecidableEq, Repr

/-- The machine. -/
structure State where
  /-- `ACC`, the accumulation buffer (R10). -/
  acc : List Byte
  /-- `RXQ`, the shared packet queue, head first (R11). -/
  rxq : List Packet
  /-- `LAST`, the last-sent packet slot (R12). -/
  last : Option Packet
  /-- `TXS`, the controller's state (R13). -/
  txs : TxState
  /-- `TXLOG`, everything written to the transport since reset (R15). -/
  txlog : List Byte
  /-- The RSP port: the last completion, none while an operation is outstanding (R24). -/
  rsp : Option Reply
  /-- The host's outstanding receive (R95, R170). -/
  pend : Option Pend
  /-- `HST`, the host's state (R17). -/
  hst : HostState
  /-- `FW`, the firmware image of the session (R17). -/
  fw : List Byte
  /-- `OFF`, the offset cursor into `FW` (R17). -/
  off : Nat
  /-- Where the host stands inside the action of `HST` (R129 to R140). -/
  phase : Phase
  /-- The host's progress reports since reset, oldest first (R141). -/
  reports : List Report
  /-- The faults raised in this run, oldest first, never cleared but by reset (R150). -/
  faults : List RaisedFault
  /-- The parameters of the run (R8). -/
  cfg : Cfg
  /-- The MODEL's own: what happens next, in order (log entry 1). -/
  schedule : List Event
  deriving DecidableEq, Repr

/-- The machine right after reset (R23, R170, D7): nothing has arrived, nothing was sent, nothing is outstanding. -/
def State.reset : State where
  acc := []
  rxq := []
  last := none
  txs := .idle
  txlog := []
  rsp := none
  pend := none
  hst := .sync
  fw := []
  off := 0
  phase := .unstarted
  reports := []
  faults := []
  cfg := Config.default
  schedule := []

/-- Why the machine stops with a fault. -/
inductive Fault where
  /-- Raised by EMIT, alone or inside RXCHUNK, onto a full finite queue (R96, R151). Safe: no source says what the
  hardware does next, and the spec forbids choosing (D9, U13). -/
  | queueOverflow
  /-- Raised by the RETX arm of WAITSTEP when `LAST` holds no packet (D8, U9). Safe: the spec asks for a fault, and
  no reachable state comes here (R16 item 4). -/
  | lastEmpty
  deriving DecidableEq, Repr

/-- Why something asked of the machine has no step. -/
inductive Refusal where
  /-- An arm of `exec` without a meaning. Safe. -/
  | notModelled (mnemonic : String)
  /-- Raised by TRANSMIT, TAKE, WRITERAW and the host's operations over them while a TRANSMIT or a receive is
  outstanding (R112, D13, R19, U8). Safe: the spec says there is no step. -/
  | busy
  /-- Raised by the packet rows when no agent is waiting for a packet: a packet is taken by WAITSTEP or by TAKE and
  by nothing else (R11, R20, R40, R52). Safe: the spec gives no step. -/
  | noConsumer
  /-- Raised by TRANSMIT and PKT.OTHER on an operand of other than 18 bytes (R105, D12). Safe: the spec says
  "refused before any step". -/
  | notAPacket (n : Nat)
  /-- Raised by the fetch on bytes that decode to nothing (R57, D6). Safe: the spec refuses the command. -/
  | undecodable (e : DecodeError)
  /-- Raised by the start of a session with an image outside 1 to 2^32 - 1 bytes (R142, D29, U10). Safe: the spec
  says the host refuses to start. -/
  | firmwareDomain (n : Nat)
  /-- Raised by the start of a session when one was started since reset (R125: one session at a time). Safe. -/
  | sessionRunning
  deriving DecidableEq, Repr

/-- The outcome of an operation. -/
abbrev Outcome := Host.Outcome State Fault Refusal

end Sys2Proof.Machine
end

