-- ==== Sys2Proof/Machine/Flags.lean ====
section
/-! DEFINITION. The block has no flag register: its four conditions are derived from the state (R20), and so are the
host's freedom to issue (R19, R112) and the session's next operation (R129 to R140). -/

namespace Sys2Proof.Machine

/-- `rxq_nonempty` (R20). -/
def State.rxqNonempty (s : State) : Bool := !s.rxq.isEmpty

/-- `rxq_full` (R20): never with an unbounded queue. Where the spec writes `=` this says "at least", which is the
same in every state that keeps the queue within `QDEPTH` (R16, log entry 7). -/
def State.rxqFull (s : State) : Bool :=
  match s.cfg.qdepth with
  | none => false
  | some n => decide (n ≤ s.rxq.length)

/-- `last_valid` (R20). -/
def State.lastValid (s : State) : Bool := s.last.isSome

/-- `busy` (R20): a TRANSMIT is outstanding. -/
def State.busy (s : State) : Bool := s.txs == .wait

/-- The host may issue: no TRANSMIT and no receive of its own is outstanding (R19, R24, R112). -/
def State.free (s : State) : Bool := s.txs == .idle && s.pend == none

/-- The operation the session issues next in state `HST`, none while one is outstanding, before a session starts and
after it ends (R125, R129 to R140, R143). -/
def State.sessionNext (s : State) : Option SessionOp :=
  match s.phase, s.hst with
  | .ready, .sync => some .mark
  | .marked, .sync => some (.receive (.await s.cfg.ops.seqObserved))
  | .ready, .sendUpdateReq => some (.receive (.await s.cfg.ops.updateReq))
  | .ready, .waitForUpdateRes => some (.send [s.cfg.ops.updateRes])
  | .ready, .deviceIdReq => some (.receive (.await s.cfg.ops.deviceIdReq))
  | .ready, .deviceIdRes => some (.send (deviceIdPayload s.cfg.ops))
  | .ready, .fwLengthReq => some (.receive (.await s.cfg.ops.fwLengthReq))
  | .ready, .fwLengthRes => some (.send (fwLengthPayload s.cfg.ops (BitVec.ofNat 32 s.fw.length)))
  | .ready, .eraseApplication => some (.receive (.await s.cfg.ops.readyForData))
  | .ready, .receiveFirmware => some (.send (fwChunkAt s.fw s.off))
  | .acked, .receiveFirmware => some (.receive (.expect s.cfg.ops.readyForData))
  | .ready, .updateSuccess => some (.receive (.await s.cfg.ops.updateSuccess))
  | _, _ => none

end Sys2Proof.Machine
end

