-- ==== Sys2Proof/Machine/Ops.lean ====
section
/-! DEFINITION. The named operations over the state: the primitives of `spec/00_scope.md` section 5, the framer's
step, the taking of a packet by whoever is waiting for one, the issue of the host's operations, the raising of a
fault, and the reset event. Every meaning is written over these. -/

namespace Sys2Proof.Machine

/-! ## Writes of one state element -/

/-- `tx(bytes)`: append to the outbound record (R15, R44). -/
def State.tx (s : State) (bs : List Byte) : State := { s with txlog := s.txlog ++ bs }

/-- `push_back(RXQ, p)` (R11). -/
def State.pushBack (s : State) (p : Packet) : State := { s with rxq := s.rxq ++ [p] }

/-- `ACC <- bs`. -/
def State.withAcc (s : State) (bs : List Byte) : State := { s with acc := bs }

/-- `RXQ <- q`. -/
def State.withRxq (s : State) (q : List Packet) : State := { s with rxq := q }

/-- `LAST <- some p`: overwritten, never appended (R12, R109). -/
def State.record (s : State) (p : Packet) : State := { s with last := some p }

/-- `TXS <- t`. -/
def State.withTxs (s : State) (t : TxState) : State := { s with txs := t }

/-- `return r`: the completion of an operation on the RSP port (R24). -/
def State.reply (s : State) (r : Reply) : State := { s with rsp := some r }

/-- An operation that does not complete at once has been issued: no completion stands on RSP. -/
def State.awaitReply (s : State) : State := { s with rsp := none }

/-- The host is suspended in a receive (R95, R163). -/
def State.suspend (s : State) (w : Pend) : State := { s with pend := some w, rsp := none }

/-- The host's receive is over, with this completion. -/
def State.release (s : State) (r : Reply) : State := { s with pend := none, rsp := some r }

/-- The host moves inside the action of its state. -/
def State.withPhase (s : State) (ph : Phase) : State := { s with phase := ph }

/-- `HST <- h`, at the start of its action; a transition is reported (R141). -/
def State.enter (s : State) (h : HostState) : State :=
  { s with
    hst := h
    phase := .ready
    reports := if h = s.hst then s.reports else s.reports ++ [.moved h] }

/-- `OFF <- n`; the bytes that remain are reported (R141). -/
def State.withOff (s : State) (n : Nat) : State :=
  { s with off := n, reports := s.reports ++ [.remaining (s.fw.length - n)] }

/-- The schedule that remains. -/
def State.withSchedule (s : State) (es : List Event) : State := { s with schedule := es }

/-! ## Raising a fault, and reset -/

/-- `raise f` (R150, R156): the host receives the fault as the completion of its operation, the fault is kept for
the rest of the run, and no state element of the block is written. There is nothing to return from (R157). -/
def State.raise (s : State) (f : RaisedFault) : State :=
  { s with faults := s.faults ++ [f], rsp := some (.fault f) }

/-- The reset event (R170, R171, D19): every element of the block and the host back to its reset value, outstanding
operations abandoned without completion, nothing sent. The parameters of the run stay, the image among them, and so
does what the outside world does next. -/
def resetEvent (s : State) : State :=
  { State.reset with fw := s.fw, cfg := s.cfg, schedule := s.schedule }

/-! ## The framer -/

/-- EMIT (R91): the first 18 bytes of ACC to the tail of RXQ, unchanged and unchecked (R93); not enabled, and so
without effect, while fewer are there; onto a full queue the fault of rule R96. -/
def emitPacket (s : State) : Outcome :=
  match toPacket (s.acc.take pktLen) with
  | none => .next s
  | some p =>
    if s.rxqFull then .fault .queueOverflow
    else .next ((s.withAcc (s.acc.drop pktLen)).pushBack p)

/-- `while |ACC| >= 18: EMIT` (R90); `fuel` bounds the rounds, and |ACC| rounds are always enough. -/
def drain : Nat → State → Outcome
  | 0, s => .next s
  | fuel + 1, s =>
    if pktLen ≤ s.acc.length then
      match emitPacket s with
      | .next s' => drain fuel s'
      | .fault f => .fault f
      | .refused r => .refused r
    else .next s

/-- RXCHUNK (R90): append, then emit every whole packet, in one atomic step (R37, D15). -/
def receiveChunk (chunk : List Byte) (s : State) : Outcome :=
  drain (s.acc ++ chunk).length (s.withAcc (s.acc ++ chunk))

/-! ## Taking a packet -/

/-- The host state after the packet its state waits for (R129 to R140). -/
def afterReceive : HostState → HostState
  | .sync => .sendUpdateReq
  | .sendUpdateReq => .waitForUpdateRes
  | .deviceIdReq => .deviceIdRes
  | .fwLengthReq => .fwLengthRes
  | .eraseApplication => .receiveFirmware
  | .receiveFirmware => .receiveFirmware
  | .updateSuccess => .done
  | .waitForUpdateRes => .waitForUpdateRes
  | .deviceIdRes => .deviceIdRes
  | .fwLengthRes => .fwLengthRes
  | .done => .done
  | .failed => .failed

/-- The session's receive has ended: with its packet the host moves on, with another (EXPECT only) the session has
failed (R126, R128, R139). A receive that is not the session's moves nothing. -/
def State.received (s : State) (matched : Bool) : State :=
  if s.phase = .waiting then
    s.enter (if matched then afterReceive s.hst else .failed)
  else s

/-- What the controller does with a packet it has taken (R106): one arm per class of rule R79. -/
def controllerAct (q : Packet) (s : State) : Outcome :=
  match classify q with
  | .ack => .next ((s.withTxs .idle).reply .done)
  | .retx =>
    match s.last with
    | some p => .next (s.tx p.bytes)
    | none => .fault .lastEmpty
  | .other => .next s

/-- What the host does with a packet it has taken (R94, R126, R128): TAKE hands it over, AWAIT compares it and goes
on waiting when it differs, EXPECT compares it once. DESIGN CHOICE (log entry 25): RSP then carries the completion of
the AWAIT or EXPECT, not the packet of the TAKE inside. -/
def hostAct (w : Pend) (q : Packet) (s : State) : Outcome :=
  match w with
  | .take => .next (s.release (.packet q))
  | .await op =>
    if q = opPacket op then .next ((s.release .done).received true) else .next s
  | .expect op =>
    if q = opPacket op then .next ((s.release .ok).received true)
    else .next ((s.release .mismatch).received false)

/-- A packet taken from the head of RXQ goes to the one consumer that is active (R40): the controller while
TXS = WAIT, else the host in its receive. -/
def consume (q : Packet) (s : State) : Outcome :=
  match s.txs with
  | .wait => controllerAct q s
  | .idle =>
    match s.pend with
    | some w => hostAct w q s
    | none => .refused .noConsumer

/-- The active consumer takes the head of RXQ, or holds while there is none (R95, R108, R183). -/
def poll (s : State) : Outcome :=
  match s.rxq with
  | [] => .next s
  | q :: rest => consume q (s.withRxq rest)

/-! ## Issuing an operation -/

/-- Issue of a TRANSMIT (R105): write, record, enter WAIT, one atomic step (D16); refused unless the host is free. -/
def transmitPacket (p : Packet) (s : State) : Outcome :=
  if s.free then .next (((s.tx p.bytes).record p).withTxs .wait).awaitReply else .refused .busy

/-- WRITERAW (R111): the bytes go out and nothing else changes; refused unless the host is free. -/
def writeRaw (bs : List Byte) (s : State) : Outcome :=
  if s.free then .next ((s.tx bs).reply .done) else .refused .busy

/-- Issue of a receive (R94, R126, R128): it takes the head of RXQ at once where there is one. -/
def issueReceive (w : Pend) (s : State) : Outcome :=
  if s.free then poll (s.suspend w) else .refused .busy

/-! ## The host's session -/

/-- The session's TRANSMIT has completed and the host acts on it: `HST <- next`, or after a chunk the new offset and
either the check for Ready-For-Data or the last state (R131, R133, R135, R137). -/
def State.sent (s : State) : State :=
  match s.hst with
  | .waitForUpdateRes => s.enter .deviceIdReq
  | .deviceIdRes => s.enter .fwLengthReq
  | .fwLengthRes => s.enter .eraseApplication
  | .receiveFirmware =>
    let off' := s.off + (fwChunkAt s.fw s.off).length
    if off' < s.fw.length then (s.withOff off').withPhase .acked
    else (s.withOff off').enter .updateSuccess
  | _ => s.withPhase .ready

/-- The host first sees that its session's TRANSMIT has completed, where it has (R107, R127). -/
def State.settle (s : State) : State :=
  if s.phase = .sending ∧ s.txs = .idle then s.sent else s

/-- The host is about to issue `op`: where that is what its session issues next, the session has issued it. -/
def State.begin (s : State) (op : SessionOp) (ph : Phase) : State :=
  if s.settle.sessionNext = some op then s.settle.withPhase ph else s.settle

/-- SENDSYNC (R60, R129): WRITERAW of the marker. -/
def hostMark (s : State) : Outcome :=
  if s.free then writeRaw syncMarker (s.begin .mark .marked) else .refused .busy

/-- SENDACKED (R60, R127): BUILD, and its fault where the payload is too long (R75), then TRANSMIT. -/
def hostSend (payload : List Byte) (s : State) : Outcome :=
  match buildPacket payload with
  | none => .next (s.raise (.contractViolation payload.length))
  | some p =>
    if s.free then transmitPacket p (s.begin (.send payload) .sending) else .refused .busy

/-- AWAIT and EXPECT (R60, R126, R128): a receive of the host. -/
def hostReceive (w : Pend) (s : State) : Outcome :=
  if s.free then issueReceive w (s.begin (.receive w) .waiting) else .refused .busy

/-- A session starts (R125): `HST = Sync`, `OFF = 0`, `FW` the image; one session since reset, and an image of
1 to 2^32 - 1 bytes, else refused (R142, D29). Whatever is queued stays queued (R186 item 3). -/
def startSession (fw : List Byte) (s : State) : Outcome :=
  if s.phase ≠ .unstarted then .refused .sessionRunning
  else if ¬ s.free then .refused .busy
  else if 1 ≤ fw.length ∧ fw.length < 2 ^ 32 then
    .next { s with fw := fw, hst := .sync, off := 0, phase := .ready }
  else .refused (.firmwareDomain fw.length)

end Sys2Proof.Machine
end

