-- ==== Sys2Proof/Machine/Codec.lean ====
section
/-! DEFINITION. The codec family: CRC8, BUILD, VALIDATE (`spec/41_codec.md`). Pure: they read no state element and
write none, so they run in every state (R112), and only their completion on RSP is new. -/

namespace Sys2Proof.Machine

/-- CRC8 (R70). -/
def execCrc8 (bs : List Byte) (s : State) : Outcome := .next (s.reply (.byte (crc8 bs)))

/-- BUILD (R73), with the fault ContractViolation as its completion on a longer payload (R75). -/
def execBuild (bs : List Byte) (s : State) : Outcome :=
  match buildPacket bs with
  | some p => .next (s.reply (.packet p))
  | none => .next (s.raise (.contractViolation bs.length))

/-- VALIDATE (R76). -/
def execValidate (bs : List Byte) (s : State) : Outcome := .next (s.reply (.bool (validates bs)))

end Sys2Proof.Machine
end

