-- ==== Sys2Proof/Machine/Framer.lean ====
section
/-! DEFINITION. The receive framer family: RXCHUNK, EMIT, TAKE (`spec/42_framer.md`). -/

namespace Sys2Proof.Machine

/-- RXCHUNK (R90): enabled in every state, whatever TXS is. -/
def execRxchunk (chunk : List Byte) (s : State) : Outcome := receiveChunk chunk s

/-- EMIT (R91). -/
def execEmit (s : State) : Outcome := emitPacket s

/-- TAKE (R94): refused while the host is not free (R112), held while RXQ is empty (R95). -/
def execTake (s : State) : Outcome := issueReceive .take s

end Sys2Proof.Machine
end

