-- ==== Sys2Proof/Machine/HostPackets.lean ====
section
/-! DEFINITION. The sync marker and the host's packets (`spec/30_encoding.md` R55, R56, `spec/44_host_sequencer.md`).
An inbound row says what becomes of that packet once the active consumer has taken it: it advances the state that
awaits it, is dropped by the others, fails ReceiveFirmware (R126, R139), and is lost to the controller while
TXS = WAIT (R116). An outbound row builds the packet and transmits it (R127); sent in its state it is the session's. -/

namespace Sys2Proof.Machine

/-- SYNC (R5, R55, R129): the four bytes, unframed, through WRITERAW. -/
def execSync (s : State) : Outcome := hostMark s

/-- HOSTPKT.SEQ_OBSERVED (R129). -/
def execHostSeqObserved (s : State) : Outcome := consume (opPacket s.cfg.ops.seqObserved) s

/-- HOSTPKT.UPDATE_REQ (R130). -/
def execHostUpdateReq (s : State) : Outcome := consume (opPacket s.cfg.ops.updateReq) s

/-- HOSTPKT.UPDATE_RES (R131). -/
def execHostUpdateRes (s : State) : Outcome := hostSend [s.cfg.ops.updateRes] s

/-- HOSTPKT.DEVICE_ID_REQ (R132). -/
def execHostDeviceIdReq (s : State) : Outcome := consume (opPacket s.cfg.ops.deviceIdReq) s

/-- HOSTPKT.DEVICE_ID_RES (R133). -/
def execHostDeviceIdRes (s : State) : Outcome := hostSend (deviceIdPayload s.cfg.ops) s

/-- HOSTPKT.FW_LENGTH_REQ (R134). -/
def execHostFwLengthReq (s : State) : Outcome := consume (opPacket s.cfg.ops.fwLengthReq) s

/-- HOSTPKT.FW_LENGTH_RES (R135). -/
def execHostFwLengthRes (len : BitVec 32) (s : State) : Outcome :=
  hostSend (fwLengthPayload s.cfg.ops len) s

/-- HOSTPKT.READY_FOR_DATA (R136, R137). -/
def execHostReadyForData (s : State) : Outcome := consume (opPacket s.cfg.ops.readyForData) s

/-- HOSTPKT.FW_CHUNK (R137, R138): the chunk is the whole payload, no opcode byte. -/
def execHostFwChunk (chunk : List Byte) (s : State) : Outcome := hostSend chunk s

/-- HOSTPKT.UPDATE_SUCCESS (R140). -/
def execHostUpdateSuccess (s : State) : Outcome := consume (opPacket s.cfg.ops.updateSuccess) s

end Sys2Proof.Machine
end

