-- ==== Sys2Proof/Machine/Pseudo.lean ====
section
/-! DEFINITION. The host's pseudo-operations (`spec/30_encoding.md` R60, `spec/44_host_sequencer.md` R126 to R129).
AWAIT's and EXPECT's TAKEs are one step each: the issue takes the head of RXQ where there is one, and the host's later
turns take the next. -/

namespace Sys2Proof.Machine

/-- SENDSYNC (R60, R129). -/
def execSendsync (s : State) : Outcome := hostMark s

/-- SENDACKED (R60, R127). -/
def execSendacked (payload : List Byte) (s : State) : Outcome := hostSend payload s

/-- AWAIT (R60, R126). -/
def execAwait (op : Byte) (s : State) : Outcome := hostReceive (.await op) s

/-- EXPECT (R60, R128). -/
def execExpect (op : Byte) (s : State) : Outcome := hostReceive (.expect op) s

end Sys2Proof.Machine
end

