-- ==== Sys2Proof/Machine/Retransmit.lean ====
section
/-! DEFINITION. The retransmit controller family: TRANSMIT, WAITSTEP, WRITERAW (`spec/43_retransmit.md`), and the
packet classes the controller decodes (`spec/30_encoding.md` R52). A packet row says what becomes of that packet once
the active consumer has taken it from RXQ: WAITSTEP takes, decodes and does so. -/

namespace Sys2Proof.Machine

/-- TRANSMIT (R105): any 18 bytes, unchecked (R115); another length is refused before any step (D12). -/
def execTransmit (p : List Byte) (s : State) : Outcome :=
  match toPacket p with
  | some q => transmitPacket q s
  | none => .refused (.notAPacket p.length)

/-- WAITSTEP (R106): enabled while TXS = WAIT and RXQ is not empty, else the controller has no step (R108). -/
def execWaitstep (s : State) : Outcome :=
  match s.txs with
  | .wait => poll s
  | .idle => .next s

/-- WRITERAW (R111). -/
def execWriteraw (bs : List Byte) (s : State) : Outcome := writeRaw bs s

/-- PKT.ACK (R52, R53, R106): completes the outstanding TRANSMIT (R107); to the host a packet like any other (R58). -/
def execPktAck (s : State) : Outcome := consume ackPkt s

/-- PKT.RETX (R52, R54, R106): the last-sent packet goes out again; to the host a packet like any other (R109). -/
def execPktRetx (s : State) : Outcome := consume retxPkt s

/-- PKT.OTHER (R52, R106): the controller discards it (R116); the host is handed it (R58). -/
def execPktOther (p : List Byte) (s : State) : Outcome :=
  match toPacket p with
  | some q => consume q s
  | none => .refused (.notAPacket p.length)

end Sys2Proof.Machine
end

