-- ==== Sys2Proof/Machine/Dispatch.lean ====
section
/-! DEFINITION. One arm per constructor of `Instr`, one meaning per arm. -/

namespace Sys2Proof.Machine

def exec (i : Instr) (s : State) : Host.Outcome State Fault Refusal :=
  match i with
  -- codec (41_codec.md)
  | .crc8 bs => Sys2Proof.Machine.execCrc8 bs s
  | .build bs => Sys2Proof.Machine.execBuild bs s
  | .validate bs => Sys2Proof.Machine.execValidate bs s
  -- framer and controller (42_framer.md, 43_retransmit.md)
  | .take => Sys2Proof.Machine.execTake s
  | .transmit p => Sys2Proof.Machine.execTransmit p s
  | .writeraw bs => Sys2Proof.Machine.execWriteraw bs s
  | .rxchunk chunk => Sys2Proof.Machine.execRxchunk chunk s
  | .emit => Sys2Proof.Machine.execEmit s
  | .waitstep => Sys2Proof.Machine.execWaitstep s
  -- packet classes (30_encoding.md R52)
  | .pktAck => Sys2Proof.Machine.execPktAck s
  | .pktRetx => Sys2Proof.Machine.execPktRetx s
  | .pktOther p => Sys2Proof.Machine.execPktOther p s
  -- the marker and the host's packets (30_encoding.md R55, R56)
  | .sync => Sys2Proof.Machine.execSync s
  | .hostSeqObserved => Sys2Proof.Machine.execHostSeqObserved s
  | .hostUpdateReq => Sys2Proof.Machine.execHostUpdateReq s
  | .hostUpdateRes => Sys2Proof.Machine.execHostUpdateRes s
  | .hostDeviceIdReq => Sys2Proof.Machine.execHostDeviceIdReq s
  | .hostDeviceIdRes => Sys2Proof.Machine.execHostDeviceIdRes s
  | .hostFwLengthReq => Sys2Proof.Machine.execHostFwLengthReq s
  | .hostFwLengthRes len => Sys2Proof.Machine.execHostFwLengthRes len s
  | .hostReadyForData => Sys2Proof.Machine.execHostReadyForData s
  | .hostFwChunk chunk => Sys2Proof.Machine.execHostFwChunk chunk s
  | .hostUpdateSuccess => Sys2Proof.Machine.execHostUpdateSuccess s
  -- pseudo-operations (30_encoding.md R60)
  | .sendsync => Sys2Proof.Machine.execSendsync s
  | .sendacked payload => Sys2Proof.Machine.execSendacked payload s
  | .await op => Sys2Proof.Machine.execAwait op s
  | .expect op => Sys2Proof.Machine.execExpect op s

end Sys2Proof.Machine
end

