-- ==== Sys2Proof/Machine/Fetch.lean ====
section
/-! DEFINITION. What the machine does next: the head of the schedule, or, where the schedule names nothing, the
internal step that is enabled (R187). -/

namespace Sys2Proof.Machine

/-- What was fetched. -/
inductive Fetched where
  /-- Run this instruction on this state. -/
  | run (i : Instr) (s : State)
  /-- No instruction runs: a hold, a reset, the start of a session, the host seeing a completion. -/
  | stay (s : State)
  /-- What was asked for has no step. -/
  | refuse (r : Refusal)
  deriving DecidableEq, Repr

/-- A decoded transaction, on the state it runs on. -/
def Fetched.ofDecoded (s : State) : Except DecodeError Instr → Fetched
  | .ok i => .run i s
  | .error e => .refuse (.undecodable e)

/-- The instruction that performs an operation of the session. -/
def sessionInstr (s : State) : SessionOp → Instr
  | .mark => .sendsync
  | .receive .take => .take
  | .receive (.await op) => .await op
  | .receive (.expect op) => .expect op
  | .send payload =>
    match s.hst with
    | .waitForUpdateRes => .hostUpdateRes
    | .deviceIdRes => .hostDeviceIdRes
    | .fwLengthRes => .hostFwLengthRes (BitVec.ofNat 32 s.fw.length)
    | .receiveFirmware => .hostFwChunk payload
    | _ => .sendacked payload

/-- The host's turn (R125): suspended while TXS = WAIT (R108); in a receive it takes the head of RXQ, decodes it and
acts on it, or holds (R95); else it acts on its completed TRANSMIT, or issues its session's next operation. -/
def hostTurn (s : State) : Fetched :=
  match s.txs with
  | .wait => .stay s
  | .idle =>
    match s.pend with
    | some _ =>
      match s.rxq with
      | [] => .stay s
      | q :: rest => .run (decodeHostIn s.cfg.ops q) (s.withRxq rest)
    | none =>
      if s.phase = .sending then .stay s.settle
      else
        match s.sessionNext with
        | some op => .run (sessionInstr s op) s
        | none => .stay s

/-- The internal step enabled when the schedule names none: the framer's, the controller's, the host's (R187); where
there is none the machine holds (R183). -/
def autonomous (s : State) : Fetched :=
  if pktLen ≤ s.acc.length then .run .emit s
  else
    match s.txs with
    | .wait => if s.rxqNonempty then .run .waitstep s else .stay s
    | .idle => hostTurn s

/-- A session's start, as a fetch. -/
def fetchStart (fw : List Byte) (s : State) : Fetched :=
  match startSession fw s with
  | .next s' => .stay s'
  | .fault _ => .stay s
  | .refused r => .refuse r

/-- What happens next. -/
def fetch (s : State) : Fetched :=
  match s.schedule with
  | [] => autonomous s
  | e :: es =>
    let s' := s.withSchedule es
    match e with
    | .cmd bytes => .ofDecoded s' (decodeCmd bytes)
    | .rx chunk => .run (.rxchunk chunk) s'
    | .rst => .stay (resetEvent s')
    | .wire bytes => .ofDecoded s' (decodeWire s.cfg.ops s.settle.hst bytes)
    | .sendsync => .run .sendsync s'
    | .sendacked payload => .run (.sendacked payload) s'
    | .await op => .run (.await op) s'
    | .expect op => .run (.expect op) s'
    | .start fw => fetchStart fw s'
    | .framer => .run .emit s'
    | .ctl => .run .waitstep s'
    | .host => hostTurn s'

/-! ## Placing one instruction -/

/-- A CMD transaction, next. -/
def State.placeCmd (s : State) (bytes : List Byte) : State :=
  { s with schedule := .cmd bytes :: s.schedule }

/-- An outbound unit, next. -/
def State.placeWire (s : State) (bytes : List Byte) : State :=
  { s with schedule := .wire bytes :: s.schedule }

/-- A packet at the head of RXQ with the controller waiting for it, and the controller's turn next. Nothing else
lets the block decode a packet (R52), so the wait is set up too, `LAST` included (R16 item 4). -/
def State.placePacket (s : State) (p : Packet) : State :=
  { s with
    rxq := p :: s.rxq
    txs := .wait
    pend := none
    last := some (s.last.getD p)
    schedule := .ctl :: s.schedule }

end Sys2Proof.Machine
end

