-- ==== Sys2Proof/Machine/Step.lean ====
section
/-! DEFINITION. One step of the machine: fetch, then the meaning of what was fetched. -/

namespace Sys2Proof.Machine

/-- One step. -/
def step (s : State) : Host.Outcome State Fault Refusal :=
  match fetch s with
  | .run i s' => exec i s'
  | .stay s' => .next s'
  | .refuse r => .refused r

/-- `s` with the instruction whose table word is `w` placed where `step` fetches next (log entry 1): a CMD
transaction, a RAW4 unit of the outbound wire, or a packet at the head of RXQ for the controller. -/
def State.withFetchWord (s : State) (nbits w : Nat) : State :=
  if nbits = 8 then s.placeCmd (layOutCmd w)
  else if nbits = 32 then s.placeWire (bytesOfTable 4 w)
  else if nbits = 144 then
    match toPacket (bytesOfTable 18 w) with
    | some p => s.placePacket p
    | none => s
  else s

end Sys2Proof.Machine
end

