-- ==== Sys2Proof/Safety.lean ====
section
/-! DEFINITION. The terms the statements use: the invariant of the machine, the ends and hangs of a run, room in the
queue, kinds of instructions, and repeated operations (`spec/10_state.md` R16, `spec/70_reset_and_hazards.md` R183, R189). -/

namespace Sys2Proof

/-! ## Kinds of instructions -/

/-- The packet a packet row is about, with the opcodes `o` (R52 to R54, R56): what its consumer has taken. -/
def Instr.takenPacket (o : Opcodes) : Instr → Option Packet
  | .pktAck => some Machine.ackPkt
  | .pktRetx => some Machine.retxPkt
  | .pktOther p => Machine.toPacket p
  | .hostSeqObserved => some (Machine.opPacket o.seqObserved)
  | .hostUpdateReq => some (Machine.opPacket o.updateReq)
  | .hostDeviceIdReq => some (Machine.opPacket o.deviceIdReq)
  | .hostFwLengthReq => some (Machine.opPacket o.fwLengthReq)
  | .hostReadyForData => some (Machine.opPacket o.readyForData)
  | .hostUpdateSuccess => some (Machine.opPacket o.updateSuccess)
  | _ => none

/-- The payload of SENDACKED, and of the host's outbound packets, which are SENDACKEDs (R56, R60, R127). -/
def Instr.sentPayload (o : Opcodes) : Instr → Option (List Byte)
  | .sendacked payload => some payload
  | .hostUpdateRes => some [o.updateRes]
  | .hostDeviceIdRes => some (Machine.deviceIdPayload o)
  | .hostFwLengthRes len => some (Machine.fwLengthPayload o len)
  | .hostFwChunk chunk => some chunk
  | _ => none

/-- The receive that TAKE, AWAIT and EXPECT are (R94, R126, R128). -/
def Instr.receives : Instr → Option Machine.Pend
  | .take => some .take
  | .await op => some (.await op)
  | .expect op => some (.expect op)
  | _ => none

/-- CRC8, BUILD and VALIDATE, the pure operations (R112). -/
def Instr.isPure : Instr → Bool
  | .crc8 _ => true
  | .build _ => true
  | .validate _ => true
  | _ => false

/-- What may happen while a TRANSMIT is outstanding: the controller's step, or a chunk arriving (R108, R112). -/
def Instr.inWait : Instr → Bool
  | .waitstep => true
  | .rxchunk _ => true
  | _ => false

end Sys2Proof

namespace Sys2Proof.Machine

/-! ## The invariant -/

/-- The receive the host's state is about (R129 to R140): what its AWAIT or EXPECT waits for. -/
def State.awaited (s : State) : Option Pend :=
  match s.hst with
  | .sync => some (.await s.cfg.ops.seqObserved)
  | .sendUpdateReq => some (.await s.cfg.ops.updateReq)
  | .deviceIdReq => some (.await s.cfg.ops.deviceIdReq)
  | .fwLengthReq => some (.await s.cfg.ops.fwLengthReq)
  | .eraseApplication => some (.await s.cfg.ops.readyForData)
  | .receiveFirmware => some (.expect s.cfg.ops.readyForData)
  | .updateSuccess => some (.await s.cfg.ops.updateSuccess)
  | .waitForUpdateRes => none
  | .deviceIdRes => none
  | .fwLengthRes => none
  | .done => none
  | .failed => none

/-- The states whose action is a SENDACKED (R131, R133, R135, R137). -/
def sendingStates : List HostState := [.waitForUpdateRes, .deviceIdRes, .fwLengthRes, .receiveFirmware]

/-- What holds between operations in every reachable state (R16, R17, R125 to R142). -/
structure State.Inv (s : State) : Prop where
  /-- No whole packet is left in ACC (R16 item 2). -/
  accShort : s.acc.length < pktLen
  /-- TXS = WAIT implies LAST holds a packet (R16 item 4). -/
  lastHeld : s.txs = .wait → s.last ≠ none
  /-- RXQ keeps within QDEPTH (R11, R96). -/
  queueFits : ∀ n, s.cfg.qdepth = some n → s.rxq.length ≤ n
  /-- One consumer at a time: no receive of the host is outstanding during a TRANSMIT (R40). -/
  oneConsumer : s.txs = .wait → s.pend = none
  /-- `0 ≤ OFF ≤ |FW|` (R17). -/
  offset : s.off ≤ s.fw.length
  /-- A session has an image of 1 to 2^32 - 1 bytes (R142). -/
  image : s.phase ≠ .unstarted → 1 ≤ s.fw.length ∧ s.fw.length < 2 ^ 32
  /-- Before ReceiveFirmware nothing of the image has been sent (R125, R137). -/
  begins : s.hst ∉ [.receiveFirmware, .updateSuccess, .done, .failed] → s.off = 0
  /-- In ReceiveFirmware something is left to send (R137). -/
  remains : s.hst = .receiveFirmware → s.off < s.fw.length
  /-- UpdateSuccess and Done come after the whole image (R137, R140). -/
  whole : s.hst = .updateSuccess ∨ s.hst = .done → s.off = s.fw.length
  /-- The session's receive is the one its state is about (R126, R128). -/
  waits : s.phase = .waiting → s.pend ≠ none ∧ s.pend = s.awaited
  /-- A session's TRANSMIT belongs to a state that sends (R127). -/
  sends : s.phase = .sending → s.hst ∈ sendingStates

/-! ## Ends, hangs, faults -/

/-- The session is over (R143, R189): neither a hang nor a fault of the block is an end. -/
def State.sessionOver (s : State) : Prop := s.hst = .done ∨ s.hst = .failed

/-- A hang (R183): nothing further is scheduled, and the machine's own step changes nothing. -/
def State.Hangs (s : State) : Prop := s.schedule = [] ∧ step s = .next s

/-- No fault has been recorded (R150). -/
def State.faultFree (s : State) : Prop := s.faults = []

/-- There is room for `n` more packets in RXQ; always, when the queue is unbounded (R11, R96). -/
def State.room (s : State) (n : Nat) : Prop := ∀ d, s.cfg.qdepth = some d → s.rxq.length + n ≤ d

/-! ## Repeated operations -/

/-- `n` executions of one instruction. -/
def repeatInstr (i : Instr) : Nat → State → Outcome
  | 0, s => .next s
  | n + 1, s =>
    match exec i s with
    | .next s' => repeatInstr i n s'
    | .fault f => .fault f
    | .refused r => .refused r

/-- The instructions of a list, in order. -/
def runInstrs : List Instr → State → Outcome
  | [], s => .next s
  | i :: is, s =>
    match exec i s with
    | .next s' => runInstrs is s'
    | .fault f => .fault f
    | .refused r => .refused r

/-- The inbound bytes a list of instructions brings, in order (R92). -/
def inboundBytes : List Instr → List Byte
  | [] => []
  | .rxchunk chunk :: is => chunk ++ inboundBytes is
  | _ :: is => inboundBytes is

/-- The chunks of a list, one RXCHUNK each, in order (R92). -/
def receiveAll : List (List Byte) → State → Outcome
  | [], s => .next s
  | c :: cs, s =>
    match exec (.rxchunk c) s with
    | .next s' => receiveAll cs s'
    | .fault f => .fault f
    | .refused r => .refused r

/-- `n` steps of the machine. -/
def runSteps : Nat → State → Outcome
  | 0, s => .next s
  | n + 1, s =>
    match step s with
    | .next s' => runSteps n s'
    | .fault f => .fault f
    | .refused r => .refused r

/-! ## A whole session (R145) -/

/-- What answers the `k`-th SENDACKED of a session: `r k` Retransmit-Requests, then the ACK (R110, R145). -/
def ackReplies (r : Nat → Nat) (k : Nat) : List Packet := List.replicate (r k) retxPkt ++ [ackPkt]

/-- What that SENDACKED writes: the packet once, and once more for every request (R110, R145). -/
def copies (r : Nat → Nat) (k : Nat) (payload : List Byte) : List Byte :=
  (List.replicate (1 + r k) (buildBytes payload)).flatten

/-- The answers to the last `n` chunks of a session, the first of them its `k`-th SENDACKED: after each chunk but
the last a Ready-For-Data (R137, R138). -/
def chunkReplies (o : Opcodes) (r : Nat → Nat) : Nat → Nat → List Packet
  | 0, _ => []
  | 1, k => ackReplies r k
  | n + 2, k => ackReplies r k ++ [opPacket o.readyForData] ++ chunkReplies o r (n + 1) (k + 1)

/-- The number of chunks, `ceil(|FW| / 16)` (R138). -/
def chunkCount (fw : List Byte) : Nat := (fw.length + 15) / payloadMax

/-- The packets a successful session takes, in order (R145). -/
def sessionReplies (o : Opcodes) (r : Nat → Nat) (fw : List Byte) : List Packet :=
  [opPacket o.seqObserved, opPacket o.updateReq] ++ ackReplies r 0 ++
    [opPacket o.deviceIdReq] ++ ackReplies r 1 ++ [opPacket o.fwLengthReq] ++ ackReplies r 2 ++
    [opPacket o.readyForData] ++ chunkReplies o r (chunkCount fw) 3 ++ [opPacket o.updateSuccess]

/-- The bytes a successful session writes (R145). -/
def sessionBytes (o : Opcodes) (r : Nat → Nat) (fw : List Byte) : List Byte :=
  syncMarker ++ copies r 0 [o.updateRes] ++ copies r 1 (deviceIdPayload o) ++
    copies r 2 (fwLengthPayload o (BitVec.ofNat 32 fw.length)) ++
    (List.range (chunkCount fw)).flatMap fun j => copies r (3 + j) (fwChunkAt fw (payloadMax * j))

end Sys2Proof.Machine
end

