-- ==== Sys2Proof/Certificates/Slice0/Obligations.lean ====
section
/-! DEFINITION. The statements for the provers, in the order of OBLIGATIONS.json. -/

open Sys2Proof Sys2Proof.Machine

/-! ## Encodings -/

/-- 30_encoding.md section 1: for every well-formed instruction that has an encoding, whoever reads it decodes it
to that instruction, with every operand at every value. -/
def Obligations.DecodeInvertsEncode : Prop :=
  ∀ (o : Opcodes) (i : Instr) (r : Reader) (bs : List Byte), o.wf = true → i.wellFormed = true →
    reader i = some r → encode o i = some bs → decode o r bs = .ok i

/-- R57: on the CMD port each transaction has one meaning, and a code outside 0x01 to 0x06 is refused. That an
empty transaction and a TAKE with operand bytes decode to nothing is the model's reading (log entry 17). -/
def Obligations.CommandWordsHaveOneMeaning : Prop :=
  (∀ (o : Opcodes) (bs : List Byte) (i : Instr), decodeCmd bs = .ok i ↔
    i.wellFormed = true ∧ reader i = some .cmdPort ∧ encode o i = some bs) ∧
  (∀ (code : Byte) (operand : List Byte), code.toNat = 0 ∨ 6 < code.toNat →
    decodeCmd (code :: operand) = .error (.unassignedCode code))

/-- R5, R53, R54, R57: words written out from the spec's encodings. -/
def Obligations.SpecWordsDecode : Prop :=
  decodeCmd [0x01#8, 0xAA#8] = .ok (.crc8 [0xAA#8]) ∧
  decodeCmd [0x02#8, 0x19#8] = .ok (.build [0x19#8]) ∧
  decodeCmd [0x04#8] = .ok .take ∧
  decodeCmd [0x06#8, 0xAA#8, 0xBB#8, 0xCC#8, 0xDD#8] = .ok (.writeraw syncMarker) ∧
  decodeTableWord 32 0xAABBCCDD = some .sync ∧
  decodeTableWord 144 0x0119FFFFFFFFFFFFFFFFFFFFFFFFFFFFFF3F = some .pktAck ∧
  decodeTableWord 144 0x0115FFFFFFFFFFFFFFFFFFFFFFFFFFFFFF27 = some .pktRetx

/-- R53: the bytes of `ACK_PKT`, and the one payload that builds them. -/
def Obligations.AckPacketBytes : Prop :=
  buildPacket [0x19#8] = some ackPkt ∧
  ackPkt.bytes = [0x01#8, 0x19#8, 0xFF#8, 0xFF#8, 0xFF#8, 0xFF#8, 0xFF#8, 0xFF#8, 0xFF#8, 0xFF#8, 0xFF#8, 0xFF#8,
    0xFF#8, 0xFF#8, 0xFF#8, 0xFF#8, 0xFF#8, 0x3F#8] ∧
  ∀ s, buildPacket s = some ackPkt → s = [0x19#8]

/-- R54: the bytes of `RETX_PKT`, and the one payload that builds them. -/
def Obligations.RetxPacketBytes : Prop :=
  buildPacket [0x15#8] = some retxPkt ∧
  retxPkt.bytes = [0x01#8, 0x15#8, 0xFF#8, 0xFF#8, 0xFF#8, 0xFF#8, 0xFF#8, 0xFF#8, 0xFF#8, 0xFF#8, 0xFF#8, 0xFF#8,
    0xFF#8, 0xFF#8, 0xFF#8, 0xFF#8, 0xFF#8, 0x27#8] ∧
  ∀ s, buildPacket s = some retxPkt → s = [0x15#8]

/-- R52, R79: the block decodes a packet by equality of all 18 bytes, into three classes that cover every packet. -/
def Obligations.PacketClassesAreEqualities : Prop :=
  ∀ q : Packet,
    (decodePacket q = .pktAck ↔ q.bytes = 0x01#8 :: 0x19#8 :: List.replicate 15 0xFF#8 ++ [0x3F#8]) ∧
    (decodePacket q = .pktRetx ↔ q.bytes = 0x01#8 :: 0x15#8 :: List.replicate 15 0xFF#8 ++ [0x27#8]) ∧
    (decodePacket q = .pktOther q.bytes ↔ q ≠ ackPkt ∧ q ≠ retxPkt)

/-- R9, R74 item 2: the nine opcodes' packets are pairwise distinct and none is a control packet. -/
def Obligations.OpcodePacketsAreDistinct : Prop :=
  ∀ o : Opcodes, o.wf = true →
    (o.toList.map opPacket).Nodup ∧ ackPkt ∉ o.toList.map opPacket ∧ retxPkt ∉ o.toList.map opPacket

/-! ## The codec -/

/-- R70, R72 item 3: CRC8, command code 0x01, completes in every state with the one byte that brings the sequence
to residue zero, the left fold of R71's step, and changes nothing else. That it completes while another operation
is outstanding is the model's choice (log entry 10). -/
def Obligations.Crc8CompletesWithResidueByte : Prop :=
  ∀ (bs : List Byte) (s : State), ∃ c : Byte,
    exec (.crc8 bs) s = .next { s with rsp := some (.byte c) } ∧
    c = bs.foldl crcByte 0x00#8 ∧ (∀ b, crc8 (bs ++ [b]) = 0x00#8 ↔ b = c) ∧
    decodeCmd (0x01#8 :: bs) = .ok (.crc8 bs)

/-- R72 items 1, 2 and 7: one round bit by bit, its inverse, its linearity, and that 127 rounds
are the identity. -/
def Obligations.CrcRoundLaws : Prop :=
  (∀ c : Byte, (crcRound c).getLsbD 0 = c.getLsbD 7 ∧
    (crcRound c).extractLsb' 1 7 = c.extractLsb' 0 7 ^^^ (if c.getLsbD 7 then 0b0000011#7 else 0#7)) ∧
  Function.Bijective crcRound ∧ crcRound 0x00#8 = 0x00#8 ∧
  (∀ c b : Byte, crcByte c b = 0x00#8 ↔ c = b) ∧
  (∀ x y : Byte, crcByte 0x00#8 (x ^^^ y) = crcByte 0x00#8 x ^^^ crcByte 0x00#8 y) ∧
  (∀ c b : Byte, crcByte c b = crcByte 0x00#8 (c ^^^ b)) ∧
  (∀ c : Byte, crcRounds 127 c = c)

/-- R72 items 3, 4 and 5: residue, leading zeros, linearity in the message. -/
def Obligations.CrcMessageLaws : Prop :=
  (∀ s : List Byte, crc8 (s ++ [crc8 s]) = 0x00#8) ∧
  (∀ (n : Nat) (s : List Byte), crc8 (List.replicate n 0x00#8 ++ s) = crc8 s) ∧
  (∀ s t : List Byte, s.length = t.length → crc8 (List.zipWith (· ^^^ ·) s t) = crc8 s ^^^ crc8 t)

/-- R72 item 6: every change confined to one byte of a packet of residue zero is detected. -/
def Obligations.SingleByteErrorsDetected : Prop :=
  ∀ (p : List Byte) (i : Nat) (b : Byte), p.length = 18 → crc8 p = 0x00#8 → i < 18 → p[i]? ≠ some b →
    crc8 (p.set i b) ≠ 0x00#8

/-- R72 item 8: of all two-bit errors in a packet of residue zero exactly those 127 bit positions apart escape.
Bit position n is bit 7 - n mod 8 of byte n div 8. -/
def Obligations.DoubleBitErrorsEscapeAt127 : Prop :=
  ∀ (p : List Byte) (m n : Nat), p.length = 18 → crc8 p = 0x00#8 → m < n → n < 144 →
    (crc8 ((List.range 18).map fun k =>
        p.getD k 0x00#8 ^^^ (if m / 8 = k then 0x80#8 >>> (m % 8) else 0x00#8)
          ^^^ (if n / 8 = k then 0x80#8 >>> (n % 8) else 0x00#8)) = 0x00#8 ↔ n - m = 127)

/-- R73, R74 items 1, 3 and 4: BUILD, command code 0x02, of at most 16 bytes completes with a packet of those
bytes, well formed, which validates and gives the payload back, and changes nothing else. That it completes while
another operation is outstanding is the model's choice (log entry 10). -/
def Obligations.BuildCompletesWellFormed : Prop :=
  ∀ (bs : List Byte) (s : State), bs.length ≤ 16 → ∃ p : Packet,
    exec (.build bs) s = .next { s with rsp := some (.packet p) } ∧
    p.bytes.take 17 = BitVec.ofNat 8 bs.length :: (bs ++ List.replicate (16 - bs.length) 0xFF#8) ∧
    p.bytes[17]? = some (crc8 (p.bytes.take 17)) ∧
    wellFormedPacket p = true ∧ validates p.bytes = true ∧ payloadOf p = bs ∧
    decodeCmd (0x02#8 :: bs) = .ok (.build bs)

/-- R75: BUILD of a longer payload completes with ContractViolation, builds nothing, and the block goes on: the
state is as before but for the recorded fault, which the host receives. That this is a next state with the fault
recorded is the model's reading (log entry 5), and that it happens while another operation is outstanding its
choice (log entry 10). -/
def Obligations.BuildOfLongPayloadFaults : Prop :=
  ∀ (bs : List Byte) (s : State), 16 < bs.length →
    buildPacket bs = none ∧
    exec (.build bs) s = .next { s with
      rsp := some (.fault (.contractViolation bs.length))
      faults := s.faults ++ [.contractViolation bs.length] }

/-- R62: a packet is well formed exactly when BUILD makes it of some payload of at most 16 bytes, and that payload
is `payload_of` it. -/
def Obligations.WellFormedIsBuilt : Prop :=
  ∀ p : Packet,
    (wellFormedPacket p = true ↔ ∃ s : List Byte, s.length ≤ 16 ∧ buildPacket s = some p) ∧
    ∀ s, buildPacket s = some p → s = payloadOf p

/-- R76, R77 item 2: VALIDATE, command code 0x03, completes on every sequence with whether it is 18 bytes ending in
the CRC-8 of the first 17, which is whether it is 18 bytes of residue zero; another length is false, not a fault.
That it completes while another operation is outstanding is the model's choice (log entry 10). -/
def Obligations.ValidateCompletes : Prop :=
  ∀ (bs : List Byte) (s : State), ∃ b : Bool,
    exec (.validate bs) s = .next { s with rsp := some (.bool b) } ∧
    (b = true ↔ bs.length = 18 ∧ bs[17]? = some (crc8 (bs.take 17))) ∧
    (b = true ↔ bs.length = 18 ∧ crc8 bs = 0x00#8) ∧
    decodeCmd (0x03#8 :: bs) = .ok (.validate bs)

/-! ## The framer -/

/-- R90, R92: RXCHUNK cuts what ACC and the chunk hold together into whole packets by position alone, appends them
to RXQ in order, and keeps the rest in ACC; it touches nothing else, whatever TXS is. -/
def Obligations.RxchunkFramesByPosition : Prop :=
  ∀ (chunk : List Byte) (s : State), s.room ((s.acc ++ chunk).length / 18) → ∃ ps : List Packet,
    ps.length = (s.acc ++ chunk).length / 18 ∧
    (ps.map Packet.bytes).flatten = (s.acc ++ chunk).take (18 * ((s.acc ++ chunk).length / 18)) ∧
    exec (.rxchunk chunk) s = .next { s with
      acc := (s.acc ++ chunk).drop (18 * ((s.acc ++ chunk).length / 18))
      rxq := s.rxq ++ ps }

/-- R92, R35, R98: with an unbounded queue the cutting of the inbound stream into chunks is invisible. -/
def Obligations.ChunkingIsInvisible : Prop :=
  ∀ (cs cs' : List (List Byte)) (s : State), s.acc.length < 18 → s.cfg.qdepth = none →
    cs.flatten = cs'.flatten → receiveAll cs s = receiveAll cs' s

/-- R96, R151: with a queue of `d` packets, RXCHUNK and EMIT fault exactly when they would append one too many. That
the fault stops the machine is the model's choice (log entry 6). -/
def Obligations.QueueOverflowIsAFault : Prop :=
  ∀ (chunk : List Byte) (s : State) (d : Nat), s.cfg.qdepth = some d → s.rxq.length ≤ d →
    (exec (.rxchunk chunk) s = .fault .queueOverflow ↔ d < s.rxq.length + (s.acc ++ chunk).length / 18) ∧
    (exec .emit s = .fault .queueOverflow ↔ s.rxq.length = d ∧ 18 ≤ s.acc.length)

/-- R91: EMIT, enabled, moves the first 18 bytes of ACC to the tail of RXQ unchanged; not enabled, it has no
effect. That an EMIT that is not enabled answers the same state is the model's reading (log entry 23). -/
def Obligations.EmitMovesEighteenBytes : Prop :=
  ∀ s : State,
    (18 ≤ s.acc.length → s.room 1 → ∃ p : Packet, p.bytes = s.acc.take 18 ∧
      exec .emit s = .next { s with acc := s.acc.drop 18, rxq := s.rxq ++ [p] }) ∧
    (s.acc.length < 18 → exec .emit s = .next s)

/-- R94: TAKE, command code 0x04, by a free host returns the oldest packet, whole and unfiltered, control packets
included; while TXS = WAIT it is refused. -/
def Obligations.TakeReturnsOldest : Prop :=
  ∀ (s : State) (q : Packet) (rest : List Packet),
    (s.txs = .idle → s.pend = none → s.rxq = q :: rest →
      exec .take s = .next { s with rxq := rest, rsp := some (.packet q) }) ∧
    (s.txs = .wait → exec .take s = .refused .busy) ∧ decodeCmd [0x04#8] = .ok .take

/-- R95: TAKE on an empty queue holds, for ever if nothing arrives; the chunk that completes a packet lifts the
hold, and the host's next turn completes the TAKE with that packet. That a hold is a next state, and the host's
turn the step of an empty schedule, are the model's (log entries 23 and 16). -/
def Obligations.TakeHoldsUntilEmit : Prop :=
  ∀ (s : State), s.txs = .idle → s.pend = none → s.rxq = [] → s.acc.length < 18 → s.schedule = [] →
    ∃ t, exec .take s = .next t ∧ t = { s with pend := some .take, rsp := none } ∧ step t = .next t ∧
      ∀ chunk : List Byte, s.acc.length + chunk.length = 18 → s.room 1 → ∃ (q : Packet) (u : State),
        q.bytes = s.acc ++ chunk ∧ exec (.rxchunk chunk) t = .next u ∧
        step u = .next { s with acc := [], rsp := some (.packet q) }

/-! ## The retransmit controller -/

/-- R112, R60: while TXS = WAIT every issue of the host is refused: TRANSMIT, TAKE and WRITERAW, and the marker, the
SENDACKEDs and outbound packets that BUILD accepts, AWAIT and EXPECT, which are made of them; RXCHUNK stays enabled.
The pure operations still evaluate, which is the model's choice (log entry 10): R112 says they could. -/
def Obligations.IssueRefusedWhileWaiting : Prop :=
  ∀ (s : State) (p bs payload : List Byte) (op : Byte) (len : BitVec 32), s.txs = .wait → p.length = 18 →
    payload.length ≤ 16 →
    exec (.transmit p) s = .refused .busy ∧ exec .take s = .refused .busy ∧
    exec (.writeraw bs) s = .refused .busy ∧
    exec .sync s = .refused .busy ∧ exec .sendsync s = .refused .busy ∧
    exec (.sendacked payload) s = .refused .busy ∧ exec (.hostFwChunk payload) s = .refused .busy ∧
    exec .hostUpdateRes s = .refused .busy ∧ exec .hostDeviceIdRes s = .refused .busy ∧
    exec (.hostFwLengthRes len) s = .refused .busy ∧
    exec (.await op) s = .refused .busy ∧ exec (.expect op) s = .refused .busy ∧
    (∃ t, exec (.crc8 bs) s = .next t) ∧ (∃ t, exec (.build bs) s = .next t) ∧
    (∃ t, exec (.validate bs) s = .next t) ∧
    (s.cfg.qdepth = none → ∃ t, exec (.rxchunk bs) s = .next t)

/-- R105: TRANSMIT, command code 0x05, by a free host writes the 18 bytes, records them and enters WAIT in one step,
whatever they are; while TXS = WAIT it is refused, and so is a sequence of another length. -/
def Obligations.TransmitIssues : Prop :=
  ∀ (s : State) (p : List Byte),
    (∀ h : p.length = 18, s.txs = .idle → s.pend = none →
      exec (.transmit p) s = .next { s with
        txlog := s.txlog ++ p, last := some ⟨p, h⟩, txs := .wait, rsp := none }) ∧
    (p.length = 18 → s.txs = .wait → exec (.transmit p) s = .refused .busy) ∧
    (p.length = 18 → decodeCmd (0x05#8 :: p) = .ok (.transmit p)) ∧
    (p.length ≠ 18 → exec (.transmit p) s = .refused (.notAPacket p.length))

/-- R106: WAITSTEP takes the head of RXQ and acts on its class: completion, the last-sent bytes again, or
nothing. -/
def Obligations.WaitstepActsOnClass : Prop :=
  ∀ (s : State) (q p : Packet) (rest : List Packet), s.txs = .wait → s.rxq = q :: rest → s.last = some p →
    exec .waitstep s =
      if q = ackPkt then .next { s with rxq := rest, txs := .idle, rsp := some .done }
      else if q = retxPkt then .next { s with rxq := rest, txlog := s.txlog ++ p.bytes }
      else .next { s with rxq := rest }

/-- R52, R106: WAITSTEP is the decoder at work: it runs the instruction the head of RXQ decodes to. -/
def Obligations.WaitstepRunsDecodedPacket : Prop :=
  ∀ (s : State) (q : Packet) (rest : List Packet), s.txs = .wait → s.rxq = q :: rest →
    exec .waitstep s = exec (decodePacket q) { s with rxq := rest }

/-- R110, R107: the trace of one TRANSMIT. Until the first ACK the log holds one copy of the packet per
Retransmit-Request beyond the first copy, and at the first ACK the TRANSMIT completes with the rest of the queue
untouched: on packets queued at issue, in exactly that many WAITSTEPs; and on every mixture of WAITSTEPs and arriving
chunks, for the packets that were removed, the later ones staying queued. With an unbounded queue every such mixture
answers a next state. -/
def Obligations.TransmitTraceLaw : Prop :=
  ∀ (s : State) (p : Packet), s.txs = .idle → s.pend = none →
    (∀ qs rest : List Packet, ackPkt ∉ qs →
      (s.rxq = qs ++ rest → ∃ t u, exec (.transmit p.bytes) s = .next t ∧
        repeatInstr .waitstep qs.length t = .next u ∧
        u = { s with
          rxq := rest, last := some p, txs := .wait, rsp := none
          txlog := s.txlog ++ p.bytes ++ (List.replicate (qs.count retxPkt) p.bytes).flatten }) ∧
      (s.rxq = qs ++ ackPkt :: rest → ∃ t u, exec (.transmit p.bytes) s = .next t ∧
        repeatInstr .waitstep (qs.length + 1) t = .next u ∧
        u = { s with
          rxq := rest, last := some p, txs := .idle, rsp := some .done
          txlog := s.txlog ++ p.bytes ++ (List.replicate (qs.count retxPkt) p.bytes).flatten })) ∧
    (∀ is : List Instr, (∀ i ∈ is, i.inWait = true) →
      (s.cfg.qdepth = none → ∃ u, runInstrs (.transmit p.bytes :: is) s = .next u) ∧
      ∀ u, runInstrs (.transmit p.bytes :: is) s = .next u → ∃ qs arrived : List Packet,
        s.rxq ++ arrived = qs ++ u.rxq ∧
        (arrived.map Packet.bytes).flatten ++ u.acc = s.acc ++ inboundBytes is ∧
        qs.length ≤ is.count .waitstep ∧
        ((ackPkt ∉ qs ∧ u = { s with
            acc := u.acc, rxq := u.rxq, last := some p, txs := .wait, rsp := none
            txlog := s.txlog ++ p.bytes ++ (List.replicate (qs.count retxPkt) p.bytes).flatten }) ∨
          ∃ qs', qs = qs' ++ [ackPkt] ∧ ackPkt ∉ qs' ∧ u = { s with
            acc := u.acc, rxq := u.rxq, last := some p, txs := .idle, rsp := some .done
            txlog := s.txlog ++ p.bytes ++ (List.replicate (qs'.count retxPkt) p.bytes).flatten }))

/-- R108, R183: with TXS = WAIT and an empty queue the controller has no step, and with nothing scheduled the whole
machine hangs. That a hold is a next state is the model's reading (log entry 23). -/
def Obligations.ControllerHoldsOnEmptyQueue : Prop :=
  ∀ s : State, s.txs = .wait → s.rxq = [] →
    exec .waitstep s = .next s ∧ (s.schedule = [] → s.acc.length < 18 → s.Hangs)

/-- R111: WRITERAW, command code 0x06, by a free host appends its bytes and changes nothing else, LAST and TXS
included; while TXS = WAIT it is refused. -/
def Obligations.WriterawAppends : Prop :=
  ∀ (s : State) (bs : List Byte),
    (s.txs = .idle → s.pend = none →
      exec (.writeraw bs) s = .next { s with txlog := s.txlog ++ bs, rsp := some .done }) ∧
    (s.txs = .wait → exec (.writeraw bs) s = .refused .busy) ∧
    decodeCmd (0x06#8 :: bs) = .ok (.writeraw bs)

/-- R52, R106, R58: a packet the controller has taken is acted on by its class; the same packet taken by the host's
TAKE is handed over like any other. An inbound packet row of the host does what its packet's class does. That a
packet row is the consumption of its packet is the model's reading (log entry 11). -/
def Obligations.PacketRowsAct : Prop :=
  ∀ (s : State) (p q : Packet), q ≠ ackPkt → q ≠ retxPkt →
    exec .hostSeqObserved s = exec (decodePacket (opPacket s.cfg.ops.seqObserved)) s ∧
    exec .hostUpdateReq s = exec (decodePacket (opPacket s.cfg.ops.updateReq)) s ∧
    exec .hostDeviceIdReq s = exec (decodePacket (opPacket s.cfg.ops.deviceIdReq)) s ∧
    exec .hostFwLengthReq s = exec (decodePacket (opPacket s.cfg.ops.fwLengthReq)) s ∧
    exec .hostReadyForData s = exec (decodePacket (opPacket s.cfg.ops.readyForData)) s ∧
    exec .hostUpdateSuccess s = exec (decodePacket (opPacket s.cfg.ops.updateSuccess)) s ∧
    (s.txs = .wait → s.last = some p →
      exec .pktAck s = .next { s with txs := .idle, rsp := some .done } ∧
      exec .pktRetx s = .next { s with txlog := s.txlog ++ p.bytes } ∧
      exec (.pktOther q.bytes) s = .next s) ∧
    (s.txs = .idle → s.pend = some .take →
      exec .pktAck s = .next { s with pend := none, rsp := some (.packet ackPkt) } ∧
      exec .pktRetx s = .next { s with pend := none, rsp := some (.packet retxPkt) } ∧
      exec (.pktOther q.bytes) s = .next { s with pend := none, rsp := some (.packet q) })

/-- R12, R109: LAST changes only where a TRANSMIT is issued, with the packet then written, and no instruction
clears it. -/
def Obligations.LastChangesOnlyAtIssue : Prop :=
  ∀ (i : Instr) (s t : State), exec i s = .next t → t.last ≠ s.last →
    s.txs = .idle ∧ t.txs = .wait ∧ ∃ p : Packet, t.last = some p ∧ t.txlog = s.txlog ++ p.bytes

/-- R15, R16 item 5, R44, R113: an instruction only appends to the outbound record: nothing, or the packet in LAST,
or the operand of a WRITERAW, or the marker. -/
def Obligations.OutboundRecordOnlyGrows : Prop :=
  ∀ (i : Instr) (s t : State), exec i s = .next t →
    t.txlog = s.txlog ∨ (∃ p : Packet, t.last = some p ∧ t.txlog = s.txlog ++ p.bytes) ∨
    (∃ bs, i = .writeraw bs ∧ t.txlog = s.txlog ++ bs) ∨
    ((i = .sync ∨ i = .sendsync) ∧ t.txlog = s.txlog ++ [0xAA#8, 0xBB#8, 0xCC#8, 0xDD#8])

/-- R19, R107: an instruction enters WAIT only from IDLE by the issue of a TRANSMIT, its own or a SENDACKED's, with
the packet recorded and written, and leaves it only by a taken `ACK_PKT`: the head of RXQ taken by WAITSTEP, or the
packet of a packet row. That completes the TRANSMIT and keeps LAST and the log. -/
def Obligations.TxsMovesOnlyAtIssueAndAck : Prop :=
  ∀ (i : Instr) (s t : State), exec i s = .next t →
    (s.txs = .idle → t.txs = .wait → ∃ p : Packet,
      (i = .transmit p.bytes ∨ ∃ payload, i.sentPayload s.cfg.ops = some payload ∧ buildPacket payload = some p) ∧
      t.last = some p ∧ t.txlog = s.txlog ++ p.bytes) ∧
    (s.txs = .wait → t.txs = .idle →
      t.rsp = some .done ∧ t.last = s.last ∧ t.txlog = s.txlog ∧
      ((i = .waitstep ∧ s.rxq = ackPkt :: t.rxq) ∨ (i.takenPacket s.cfg.ops = some ackPkt ∧ t.rxq = s.rxq)))

/-- R16 item 6, R39: no instruction drops, duplicates or reorders an inbound byte: what RXQ and ACC hold, in order,
grows by the chunk at the end, or loses the head packet, or stays. -/
def Obligations.InboundBytesConserved : Prop :=
  ∀ (i : Instr) (s t : State), exec i s = .next t →
    (∀ chunk, i = .rxchunk chunk →
      (t.rxq.map Packet.bytes).flatten ++ t.acc = (s.rxq.map Packet.bytes).flatten ++ s.acc ++ chunk) ∧
    ((∀ chunk, i ≠ .rxchunk chunk) →
      (t.rxq.map Packet.bytes).flatten ++ t.acc = (s.rxq.map Packet.bytes).flatten ++ s.acc ∨
      ∃ q : Packet, s.rxq = q :: t.rxq ∧ t.acc = s.acc)

/-! ## The host -/

/-- R5, R129: SYNC and SENDSYNC by a free host write the four bytes unframed and leave LAST and TXS alone. That the
host first acts on a TRANSMIT of its session that has completed, and that the marker counts as the session's exactly
where it is what the session issues next, is the model's choice (log entry 12). -/
def Obligations.MarkerGoesOutUnframed : Prop :=
  ∀ s : State, s.txs = .idle → s.pend = none →
    exec .sync s = exec .sendsync s ∧
    exec .sendsync s = .next { s.settle with
      txlog := s.txlog ++ [0xAA#8, 0xBB#8, 0xCC#8, 0xDD#8], rsp := some .done
      phase := if s.settle.phase = .ready ∧ s.settle.hst = .sync then .marked else s.settle.phase } ∧
    (s.phase ≠ .sending → s.settle = s)

/-- R126, R129, R130, R132, R134, R136, R140: each inbound packet of the host, taken in the state that awaits it,
completes the wait and moves the host to the next state of the table. The form of the report and what RSP carries
are the model's choices (log entries 8 and 25). -/
def Obligations.AwaitedPacketAdvancesHost : Prop :=
  ∀ s : State, s.txs = .idle → s.phase = .waiting →
    (s.hst = .sync → s.pend = some (.await s.cfg.ops.seqObserved) →
      exec .hostSeqObserved s = .next { s with
        pend := none, rsp := some .done, phase := .ready,
        hst := .sendUpdateReq, reports := s.reports ++ [.moved .sendUpdateReq] }) ∧
    (s.hst = .sendUpdateReq → s.pend = some (.await s.cfg.ops.updateReq) →
      exec .hostUpdateReq s = .next { s with
        pend := none, rsp := some .done, phase := .ready,
        hst := .waitForUpdateRes, reports := s.reports ++ [.moved .waitForUpdateRes] }) ∧
    (s.hst = .deviceIdReq → s.pend = some (.await s.cfg.ops.deviceIdReq) →
      exec .hostDeviceIdReq s = .next { s with
        pend := none, rsp := some .done, phase := .ready,
        hst := .deviceIdRes, reports := s.reports ++ [.moved .deviceIdRes] }) ∧
    (s.hst = .fwLengthReq → s.pend = some (.await s.cfg.ops.fwLengthReq) →
      exec .hostFwLengthReq s = .next { s with
        pend := none, rsp := some .done, phase := .ready,
        hst := .fwLengthRes, reports := s.reports ++ [.moved .fwLengthRes] }) ∧
    (s.hst = .eraseApplication → s.pend = some (.await s.cfg.ops.readyForData) →
      exec .hostReadyForData s = .next { s with
        pend := none, rsp := some .done, phase := .ready,
        hst := .receiveFirmware, reports := s.reports ++ [.moved .receiveFirmware] }) ∧
    (s.hst = .updateSuccess → s.pend = some (.await s.cfg.ops.updateSuccess) →
      exec .hostUpdateSuccess s = .next { s with
        pend := none, rsp := some .done, phase := .ready,
        hst := .done, reports := s.reports ++ [.moved .done] })

/-- R128, R137, R139: after a chunk that is not the last, Ready-For-Data lets the host go on and any other packet,
a control packet too, ends the session in Failed. The form of the report, none on going on, and what RSP carries
are the model's choices (log entries 8 and 25). -/
def Obligations.ExpectedPacketOrFailure : Prop :=
  ∀ (s : State) (q : Packet), s.txs = .idle → s.phase = .waiting → s.hst = .receiveFirmware →
    s.pend = some (.expect s.cfg.ops.readyForData) →
    exec .hostReadyForData s = .next { s with pend := none, rsp := some .ok, phase := .ready } ∧
    (q ≠ opPacket s.cfg.ops.readyForData → exec (decodePacket q) s = .next { s with
      pend := none, rsp := some .mismatch, phase := .ready, hst := .failed,
      reports := s.reports ++ [.moved .failed] })

/-- R126: a packet that differs from the awaited one in any bit is consumed by the AWAIT and has no other effect.
That each packet is taken in a step of its own is the model's reading (log entry 13). -/
def Obligations.UnmatchedPacketIsDropped : Prop :=
  ∀ (s : State) (op : Byte) (q : Packet) (rest : List Packet),
    s.txs = .idle → s.pend = some (.await op) → s.rxq = q :: rest → s.schedule = [] → s.acc.length < 18 →
    q ≠ opPacket op → step s = .next { s with rxq := rest }

/-- R127, R131, R133, R135, R137: each outbound packet of the host, sent by its session in its state, is built and
transmitted: written, recorded, and waited for. That the session counts it as its own is the model's choice (log
entry 12). -/
def Obligations.SessionPacketsAreTransmitted : Prop :=
  ∀ s : State, s.txs = .idle → s.pend = none → s.phase = .ready →
    (s.hst = .waitForUpdateRes → ∃ p : Packet, buildPacket [s.cfg.ops.updateRes] = some p ∧
      exec .hostUpdateRes s = .next { s with
        txlog := s.txlog ++ p.bytes, last := some p, txs := .wait, rsp := none, phase := .sending }) ∧
    (s.hst = .deviceIdRes → ∃ p : Packet, buildPacket [s.cfg.ops.deviceIdRes, 0x52#8] = some p ∧
      exec .hostDeviceIdRes s = .next { s with
        txlog := s.txlog ++ p.bytes, last := some p, txs := .wait, rsp := none, phase := .sending }) ∧
    (s.hst = .fwLengthRes → s.fw.length < 2 ^ 32 → ∃ p : Packet,
      buildPacket (s.cfg.ops.fwLengthRes :: be32 s.fw.length) = some p ∧
      exec (.hostFwLengthRes (BitVec.ofNat 32 s.fw.length)) s = .next { s with
        txlog := s.txlog ++ p.bytes, last := some p, txs := .wait, rsp := none, phase := .sending }) ∧
    (s.hst = .receiveFirmware → ∃ p : Packet, buildPacket ((s.fw.drop s.off).take 16) = some p ∧
      exec (.hostFwChunk ((s.fw.drop s.off).take 16)) s = .next { s with
        txlog := s.txlog ++ p.bytes, last := some p, txs := .wait, rsp := none, phase := .sending })

/-- R60, R127, R75: SENDACKED by a free host outside a session is BUILD and then TRANSMIT; a payload over 16 bytes
is BUILD's fault and nothing is sent. The host's outbound packets are the SENDACKED of their payloads (R56). That a
length or chunk other than the session's is sent too is the model's choice (log entry 19). -/
def Obligations.SendackedBuildsThenTransmits : Prop :=
  ∀ (s : State) (payload : List Byte),
    (payload.length ≤ 16 → s.txs = .idle → s.pend = none → s.phase = .unstarted →
      ∃ p : Packet, buildPacket payload = some p ∧
        exec (.sendacked payload) s = exec (.transmit p.bytes) s ∧
        exec (.sendacked payload) s = .next { s with
          txlog := s.txlog ++ p.bytes, last := some p, txs := .wait, rsp := none }) ∧
    (16 < payload.length → exec (.sendacked payload) s = exec (.build payload) s) ∧
    exec .hostUpdateRes s = exec (.sendacked [s.cfg.ops.updateRes]) s ∧
    exec .hostDeviceIdRes s = exec (.sendacked [s.cfg.ops.deviceIdRes, 0x52#8]) s ∧
    (∀ len : BitVec 32, exec (.hostFwLengthRes len) s =
      exec (.sendacked (s.cfg.ops.fwLengthRes :: be32 len.toNat)) s) ∧
    exec (.hostFwChunk payload) s = exec (.sendacked payload) s

/-- R60, R126, R128: AWAIT and EXPECT by a free host outside a session take the head of RXQ: the packet of the
opcode completes both; another is dropped by AWAIT, which goes on waiting, and is a mismatch to EXPECT; an empty
queue suspends both. That one packet is taken in one step, and what RSP carries, are the model's (log entries 13
and 25). -/
def Obligations.AwaitAndExpectTakeTheHead : Prop :=
  ∀ (s : State) (op : Byte), s.txs = .idle → s.pend = none → s.phase = .unstarted →
    (∀ rest, s.rxq = opPacket op :: rest →
      exec (.await op) s = .next { s with rxq := rest, rsp := some .done } ∧
      exec (.expect op) s = .next { s with rxq := rest, rsp := some .ok }) ∧
    (∀ q rest, s.rxq = q :: rest → q ≠ opPacket op →
      exec (.await op) s = .next { s with rxq := rest, pend := some (.await op), rsp := none } ∧
      exec (.expect op) s = .next { s with rxq := rest, rsp := some .mismatch }) ∧
    (s.rxq = [] →
      exec (.await op) s = .next { s with pend := some (.await op), rsp := none } ∧
      exec (.expect op) s = .next { s with pend := some (.expect op), rsp := none })

/-- R126, R128, R129, R130, R132, R134, R136, R137, R140: the session's own AWAIT or EXPECT is issued and holds on
an empty queue; on another it takes the head, which is what the state's packet rows say of it. That the session
counts it as its own is the model's choice (log entry 12). -/
def Obligations.SessionReceivesAreIssued : Prop :=
  ∀ (s : State) (w : Pend), s.txs = .idle → s.pend = none → s.phase ≠ .sending →
    s.sessionNext = some (.receive w) →
    (s.rxq = [] → exec (sessionInstr s (.receive w)) s = .next { s with
      pend := some w, rsp := none, phase := .waiting }) ∧
    (∀ q rest, s.rxq = q :: rest → exec (sessionInstr s (.receive w)) s =
      exec (decodeHostIn s.cfg.ops q) { s with rxq := rest, pend := some w, rsp := none, phase := .waiting })

/-- R131, R133, R135, R137: once its TRANSMIT is acknowledged the host moves on without looking at anything else;
after a chunk the offset advances by the chunk, and the check for Ready-For-Data follows unless it was the last. The
form of the reports is the model's choice (log entry 8). -/
def Obligations.HostAdvancesAfterAck : Prop :=
  ∀ s : State, s.txs = .idle → s.pend = none → s.phase = .sending → s.schedule = [] → s.acc.length < 18 →
    (s.hst = .waitForUpdateRes → step s = .next { s with
      phase := .ready, hst := .deviceIdReq,
      reports := s.reports ++ [.moved .deviceIdReq] }) ∧
    (s.hst = .deviceIdRes → step s = .next { s with
      phase := .ready, hst := .fwLengthReq,
      reports := s.reports ++ [.moved .fwLengthReq] }) ∧
    (s.hst = .fwLengthRes → step s = .next { s with
      phase := .ready, hst := .eraseApplication,
      reports := s.reports ++ [.moved .eraseApplication] }) ∧
    (s.hst = .receiveFirmware → s.off + 16 < s.fw.length → step s = .next { s with
      phase := .acked,
      off := s.off + 16, reports := s.reports ++ [.remaining (s.fw.length - (s.off + 16))] }) ∧
    (s.hst = .receiveFirmware → s.off ≤ s.fw.length → s.fw.length ≤ s.off + 16 →
      step s = .next { s with
        phase := .ready, off := s.fw.length, hst := .updateSuccess,
        reports := s.reports ++ [.remaining 0, .moved .updateSuccess] })

/-- R138: in a state that meets the invariant every packet the session sends has 1 to 16 payload bytes, so BUILD
never faults in a session; a chunk but the last has 16 bytes. -/
def Obligations.SessionPayloadsFit : Prop :=
  ∀ (s : State) (payload : List Byte), s.Inv → s.sessionNext = some (.send payload) →
    1 ≤ payload.length ∧ payload.length ≤ 16 ∧
    (s.hst = .receiveFirmware → payload.length = min 16 (s.fw.length - s.off) ∧
      ∀ k, k < payload.length → payload[k]? = s.fw[s.off + k]?)

/-- R153, R143: an instruction brings the host to Failed only from ReceiveFirmware, with a mismatch, and to Done only
from UpdateSuccess, each with TXS = IDLE, while the session's receive of that state is outstanding or by the
instruction that issues it, and leaves none outstanding. UpdateSuccess counts as entered where the last chunk is
acknowledged and the issued AWAIT is the first to act on that, the model's choice (log entry 12), as RSP is
(log entry 25). -/
def Obligations.OutcomesHaveOneOrigin : Prop :=
  ∀ (i : Instr) (s t : State), s.Inv → exec i s = .next t →
    (t.hst = .failed → s.hst = .failed ∨
      (s.hst = .receiveFirmware ∧ t.rsp = some .mismatch ∧ t.pend = none ∧ t.txs = .idle ∧
        ((s.phase = .waiting ∧ s.pend = some (.expect s.cfg.ops.readyForData)) ∨
          (s.pend = none ∧ i = .expect s.cfg.ops.readyForData ∧
            s.settle.sessionNext = some (.receive (.expect s.cfg.ops.readyForData)))))) ∧
    (t.hst = .done → s.hst = .done ∨
      (t.rsp = some .done ∧ t.pend = none ∧ t.txs = .idle ∧
        ((s.hst = .updateSuccess ∧ s.phase = .waiting ∧ s.pend = some (.await s.cfg.ops.updateSuccess)) ∨
          (s.pend = none ∧ i = .await s.cfg.ops.updateSuccess ∧
            s.settle.sessionNext = some (.receive (.await s.cfg.ops.updateSuccess)) ∧
            (s.hst = .updateSuccess ∨
              (s.hst = .receiveFirmware ∧ s.phase = .sending ∧ s.settle.hst = .updateSuccess))))))

/-- R125, R142, D29: a session starts in Sync with offset 0 and the image given; an image of 0 or of 2^32 or more
bytes is refused. One session per reset, a second being refused, is the model's reading (log entry 15), and so is
that only a free host starts one. -/
def Obligations.SessionStart : Prop :=
  ∀ (s : State) (fw : List Byte) (es : List Event), s.schedule = .start fw :: es →
    (s.phase = .unstarted → s.txs = .idle → s.pend = none → 1 ≤ fw.length → fw.length < 2 ^ 32 →
      step s = .next { s with schedule := es, fw := fw, hst := .sync, off := 0, phase := .ready }) ∧
    (s.phase = .unstarted → s.txs = .idle → s.pend = none → (fw.length = 0 ∨ 2 ^ 32 ≤ fw.length) →
      step s = .refused (.firmwareDomain fw.length)) ∧
    (s.phase = .unstarted → s.txs = .wait ∨ s.pend ≠ none → step s = .refused .busy) ∧
    (s.phase ≠ .unstarted → step s = .refused .sessionRunning)

/-- R145, R110, R138: a session whose replies stand in the queue, with any number of Retransmit-Requests before
each ACK, reaches Done, having written the marker, the three responses and every chunk, each once and once more per
request, and taken every reply; the host reports success once. The order of the agents, and the form of the reports
that success is counted in, are the model's choices (log entries 16 and 8). -/
def Obligations.SuccessfulSession : Prop :=
  ∀ (s : State) (fw : List Byte) (r : Nat → Nat),
    1 ≤ fw.length → fw.length < 2 ^ 32 → s.schedule = [.start fw] → s.phase = .unstarted → s.txs = .idle →
    s.pend = none → s.acc.length < 18 → s.rxq = sessionReplies s.cfg.ops r fw →
    ∃ (n : Nat) (t : State), runSteps n s = .next t ∧ t.hst = .done ∧ t.off = fw.length ∧ t.rxq = [] ∧
      t.txs = .idle ∧ t.txlog = s.txlog ++ sessionBytes s.cfg.ops r fw ∧ t.acc = s.acc ∧
      t.faults = s.faults ∧ t.reports.count (.moved .done) = s.reports.count (.moved .done) + 1 ∧
      t.reports.count (.moved .failed) = s.reports.count (.moved .failed)

/-! ## The machine -/

/-- R57, R24: a step on a CMD transaction runs the instruction it decodes to, on the state less that entry of the
schedule, and refuses what decodes to nothing. The schedule is the model's own field (log entry 1). -/
def Obligations.StepRunsCommand : Prop :=
  ∀ (s : State) (bs : List Byte) (es : List Event), s.schedule = .cmd bs :: es →
    (∀ i, decodeCmd bs = .ok i → step s = exec i { s with schedule := es }) ∧
    (∀ e, decodeCmd bs = .error e → step s = .refused (.undecodable e))

/-- R59, R60, R90, R91, R106, R55: a step on any other entry of the schedule that names an instruction runs it: an
inbound chunk, a turn of the framer or of the controller, a pseudo-operation, and an outbound unit where no
acknowledged TRANSMIT of the session is still to be acted on. The schedule is the model's own field (log entry 1). -/
def Obligations.StepRunsNamedEvent : Prop :=
  ∀ (s : State) (e : Event) (es : List Event), s.schedule = e :: es →
    (∀ chunk, e = .rx chunk → step s = exec (.rxchunk chunk) { s with schedule := es }) ∧
    (e = .framer → step s = exec .emit { s with schedule := es }) ∧
    (e = .ctl → step s = exec .waitstep { s with schedule := es }) ∧
    (e = .sendsync → step s = exec .sendsync { s with schedule := es }) ∧
    (∀ p, e = .sendacked p → step s = exec (.sendacked p) { s with schedule := es }) ∧
    (∀ op, e = .await op → step s = exec (.await op) { s with schedule := es }) ∧
    (∀ op, e = .expect op → step s = exec (.expect op) { s with schedule := es }) ∧
    (∀ bs i, e = .wire bs → s.phase ≠ .sending → decodeWire s.cfg.ops s.hst bs = .ok i →
      step s = exec i { s with schedule := es })

/-- R108, R183, R187: with nothing scheduled and no whole packet in ACC, the step is the controller's while a
TRANSMIT is outstanding; else the host's receive runs the decoded head of RXQ, or holds on an empty queue; else the
host's session issues its next operation. That order of the agents is the model's choice (log entry 16). -/
def Obligations.StepRunsEnabledAgent : Prop :=
  ∀ s : State, s.schedule = [] → s.acc.length < 18 →
    (s.txs = .wait → step s = exec .waitstep s) ∧
    (∀ w, s.txs = .idle → s.pend = some w → s.rxq = [] → step s = .next s) ∧
    (∀ w q rest, s.txs = .idle → s.pend = some w → s.rxq = q :: rest →
      step s = exec (decodeHostIn s.cfg.ops q) { s with rxq := rest }) ∧
    (∀ op, s.txs = .idle → s.pend = none → s.phase ≠ .sending → s.sessionNext = some op →
      step s = exec (sessionInstr s op) s)

/-- R23, R8, R9: the state after reset, the values the spec decides, and lawful parameters; that the opcodes are
lawful rests on the model's choice of log entry 4. -/
def Obligations.ResetState : Prop :=
  State.reset.acc = [] ∧ State.reset.rxq = [] ∧ State.reset.last = none ∧ State.reset.txs = .idle ∧
  State.reset.txlog = [] ∧ State.reset.hst = .sync ∧ State.reset.off = 0 ∧
  State.reset.cfg.qdepth = none ∧ State.reset.cfg.wf = true

/-- R170, R23: the reset event in any state brings every element of the block, and the host's state and offset, to
the value of R23 and abandons the outstanding operation without completion. That RSP is then empty is the model's
choice (log entry 3). -/
def Obligations.ResetEventClearsAll : Prop :=
  ∀ (s : State) (es : List Event), s.schedule = .rst :: es → ∃ t, step s = .next t ∧
    t.acc = [] ∧ t.rxq = [] ∧ t.last = none ∧ t.txs = .idle ∧ t.txlog = [] ∧ t.pend = none ∧ t.rsp = none ∧
    t.hst = .sync ∧ t.off = 0

/-- R16, R142: the invariant holds right after reset. -/
def Obligations.ResetMeetsInvariant : Prop := State.reset.Inv

/-- R16, R17, R40, R127, R137, R142: every step of the machine keeps the invariant, from every state that meets it. -/
def Obligations.StepKeepsInvariant : Prop :=
  ∀ s t : State, s.Inv → step s = .next t → t.Inv

/-- R21, R17: no step changes the parameters, and the image changes only where a session starts. That the reset
event keeps both is the model's choice (log entry 22). -/
def Obligations.ParametersNeverChange : Prop :=
  ∀ s t : State, step s = .next t →
    t.cfg = s.cfg ∧ (t.fw = s.fw ∨ ∃ es, s.schedule = .start t.fw :: es)

/-- R150, R151: a recorded fault is kept until reset, and a step that records one runs a BUILD of more than 16 bytes,
alone or inside a SENDACKED (an outbound packet of the host is one), and writes no element of the block. That the
fault is a next state is the model's reading (log entry 5). -/
def Obligations.FaultsAreKept : Prop :=
  ∀ s t : State, step s = .next t →
    (∃ es, s.schedule = .rst :: es) ∨ t.faults = s.faults ∨
    ∃ (i : Instr) (s' : State) (bs : List Byte), fetch s = .run i s' ∧
      (i = .build bs ∨ i.sentPayload s.cfg.ops = some bs) ∧ 16 < bs.length ∧
      t.faults = s.faults ++ [.contractViolation bs.length] ∧
      t.rsp = some (.fault (.contractViolation bs.length)) ∧
      t.acc = s.acc ∧ t.rxq = s.rxq ∧ t.last = s.last ∧ t.txs = s.txs ∧ t.txlog = s.txlog

/-- R155 item 3, R98: an arriving chunk and the taking of the head commute. -/
def Obligations.FramerAndConsumersCommute : Prop :=
  ∀ (s t u : State) (chunk : List Byte), s.cfg.qdepth = none → s.rxq ≠ [] →
    (exec .waitstep s = .next t → exec (.rxchunk chunk) s = .next u →
      exec (.rxchunk chunk) t = exec .waitstep u) ∧
    (exec .take s = .next t → exec (.rxchunk chunk) s = .next u →
      exec (.rxchunk chunk) t = exec .take u)

/-- R161, R90, R91: the framer's instructions change ACC and RXQ only, and RXQ only at its tail. -/
def Obligations.FramerTouchesOnlyItsOwn : Prop :=
  ∀ (i : Instr) (s t : State), (∃ chunk, i = .rxchunk chunk) ∨ i = .emit → exec i s = .next t →
    ∃ ps : List Packet, t = { s with acc := t.acc, rxq := s.rxq ++ ps }

/-- R10, R40, R161: no instruction but the framer's touches ACC or the tail of RXQ, and none but the active
consumer's removes its head: WAITSTEP while TXS = WAIT, a free host's TAKE, AWAIT or EXPECT while TXS = IDLE. The
controller and the pure operations leave the host's state, offset and place alone. Of the steps of the machine, reset
apart, the head is removed by the same, and by the host's outstanding receive, which runs what the head decodes to. -/
def Obligations.OthersLeaveFramerAlone : Prop :=
  (∀ (i : Instr) (s t : State), (∀ chunk, i ≠ .rxchunk chunk) → i ≠ .emit → exec i s = .next t →
    t.acc = s.acc ∧
    (t.rxq = s.rxq ∨ ∃ q, s.rxq = q :: t.rxq ∧
      ((s.txs = .wait ∧ i = .waitstep) ∨ (s.txs = .idle ∧ s.pend = none ∧ i.receives ≠ none))) ∧
    t.fw = s.fw ∧ t.cfg = s.cfg ∧ t.schedule = s.schedule ∧
    (s.txs = .wait ∨ i.isPure = true → t.hst = s.hst ∧ t.off = s.off ∧ t.phase = s.phase)) ∧
  (∀ (s t : State) (q : Packet), step s = .next t → s.rxq = q :: t.rxq → (∀ es, s.schedule ≠ .rst :: es) →
    (s.txs = .wait → ∃ s', fetch s = .run .waitstep s' ∧ s'.rxq = s.rxq) ∧
    (s.txs = .idle →
      (∃ w s', s.pend = some w ∧ fetch s = .run (decodeHostIn s.cfg.ops q) s' ∧ s'.rxq = t.rxq) ∨
      (∃ i s', s.pend = none ∧ i.receives ≠ none ∧ fetch s = .run i s' ∧ s'.rxq = s.rxq)))

/-- R37, R40, R92: BUILD's output framed back: the bytes of a built packet arriving at an aligned, free block are
the packet the next TAKE returns. -/
def Obligations.BuiltPacketRoundTrips : Prop :=
  ∀ (s : State) (payload : List Byte) (p : Packet), buildPacket payload = some p → s.acc = [] → s.rxq = [] →
    s.txs = .idle → s.pend = none → s.room 1 → ∃ t u, exec (.rxchunk p.bytes) s = .next t ∧
      exec .take t = .next u ∧ u = { s with rsp := some (.packet p) }
end

