-- ==== Sys2Proof/Laws/Codec.lean ====
section
/-! SUPPORT. The small laws of the codec's functions: packets by their bytes, BUILD on short and long payloads,
CRC-8 as a fold. -/

namespace Sys2Proof

/-- Two packets with the same bytes are one packet. -/
theorem Packet.ext_bytes {p q : Packet} (h : p.bytes = q.bytes) : p = q := by
  cases p; cases q; simp_all

theorem Packet.bytes_inj {p q : Packet} : p.bytes = q.bytes ↔ p = q :=
  ⟨Packet.ext_bytes, congrArg Packet.bytes⟩

end Sys2Proof

namespace Sys2Proof.Machine

@[simp] theorem mkPacket_bytes (s : List Byte) (h : s.length ≤ payloadMax) :
    (mkPacket s h).bytes = buildBytes s := rfl

@[simp] theorem opPacket_bytes (b : Byte) : (opPacket b).bytes = buildBytes [b] := rfl

theorem buildPacket_of_le {s : List Byte} (h : s.length ≤ payloadMax) :
    buildPacket s = some (mkPacket s h) := by simp [buildPacket, h]

theorem buildPacket_of_lt {s : List Byte} (h : payloadMax < s.length) : buildPacket s = none := by
  simp only [buildPacket, dif_neg (Nat.not_le.2 h)]

/-- BUILD answers a packet exactly on a payload of at most 16 bytes, the packet of its bytes. -/
theorem buildPacket_eq_some {s : List Byte} {p : Packet} :
    buildPacket s = some p ↔ s.length ≤ payloadMax ∧ p.bytes = buildBytes s := by
  constructor
  · intro h
    unfold buildPacket at h
    split at h
    · rename_i hs
      exact ⟨hs, by rw [← Option.some.inj h]; rfl⟩
    · cases h
  · rintro ⟨hs, hp⟩
    rw [buildPacket_of_le hs]
    exact congrArg some (Packet.ext_bytes (by rw [hp]; rfl))

theorem buildPacket_singleton (b : Byte) : buildPacket [b] = some (opPacket b) :=
  buildPacket_of_le (by simp [payloadMax])

theorem buildBytes_length {s : List Byte} (h : s.length ≤ payloadMax) : (buildBytes s).length = pktLen := by
  simp [buildBytes, packetBody_length s h]

@[simp] theorem toPacket_bytes (p : Packet) : toPacket p.bytes = some p := by
  simp [toPacket, p.size]

theorem toPacket_of_length {s : List Byte} (h : s.length = 18) : toPacket s = some ⟨s, h⟩ := by
  simp [toPacket, h]

theorem toPacket_of_ne {s : List Byte} (h : s.length ≠ 18) : toPacket s = none := by
  simp [toPacket, h]

/-- A sequence is a packet exactly when it is that packet's bytes. -/
theorem toPacket_eq_some {s : List Byte} {p : Packet} : toPacket s = some p ↔ p.bytes = s := by
  constructor
  · intro h
    unfold toPacket at h
    split at h
    · rw [← Option.some.inj h]
    · cases h
  · rintro rfl; exact toPacket_bytes p

/-- A payload is read off the bytes BUILD makes of it: the length byte counts it and it follows. -/
theorem buildBytes_inj {s t : List Byte} (hs : s.length ≤ payloadMax) (ht : t.length ≤ payloadMax)
    (h : buildBytes s = buildBytes t) : s = t := by
  simp only [buildBytes, packetBody, List.cons_append, List.append_assoc, List.cons.injEq] at h
  simp only [payloadMax] at hs ht
  have hl : s.length = t.length := by
    have := congrArg BitVec.toNat h.1
    simp only [BitVec.toNat_ofNat] at this
    omega
  exact (List.append_inj h.2 hl).1

theorem buildPacket_inj {s t : List Byte} {p : Packet} (hs : buildPacket s = some p)
    (ht : buildPacket t = some p) : s = t := by
  obtain ⟨hs, hps⟩ := buildPacket_eq_some.1 hs
  obtain ⟨ht, hpt⟩ := buildPacket_eq_some.1 ht
  exact buildBytes_inj hs ht (hps.symm.trans hpt)

theorem opPacket_inj {a b : Byte} : opPacket a = opPacket b ↔ a = b := by
  constructor
  · intro h
    have := buildPacket_inj (buildPacket_singleton a) (h ▸ buildPacket_singleton b)
    exact (List.cons.inj this).1
  · rintro rfl; rfl

theorem ackPkt_ne_retxPkt : ackPkt ≠ retxPkt := fun h => absurd (opPacket_inj.1 h) (by decide)

/-! ### Reading a built packet back -/

/-- Four big-endian bytes give the 32-bit number back (R34). -/
theorem ofBe32_be32 (len : BitVec 32) : ofBe32 (be32 len.toNat) = len := by
  apply BitVec.eq_of_toNat_eq
  have hl := len.isLt
  simp only [be32, ofBe32, BitVec.toNat_append, BitVec.toNat_ofNat]
  generalize len.toNat = n at *
  rw [← Nat.shiftLeft_add_eq_or_of_lt (by omega), ← Nat.shiftLeft_add_eq_or_of_lt (by omega), ← Nat.shiftLeft_add_eq_or_of_lt (by omega)]
  simp only [Nat.shiftLeft_eq]
  omega

/-- The length byte of a built packet counts its payload (R51). -/
theorem lengthByte_build {s : List Byte} {p : Packet} (h : buildPacket s = some p) : lengthByte p = s.length := by
  obtain ⟨hl, hb⟩ := buildPacket_eq_some.1 h
  simp only [payloadMax] at hl
  simp [lengthByte, hb, buildBytes, packetBody]
  omega

/-- The payload of a built packet is the one it was built of (R51). -/
theorem payloadOf_build {s : List Byte} {p : Packet} (h : buildPacket s = some p) : payloadOf p = s := by
  have hl := lengthByte_build h
  obtain ⟨_, hb⟩ := buildPacket_eq_some.1 h
  simp [payloadOf, hl, hb, buildBytes, packetBody]

/-- The body of a built packet. -/
theorem take_build {s : List Byte} (h : s.length ≤ 16) : (buildBytes s).take 17 = packetBody s := by
  have := packetBody_length s h
  simp only [bodyLen] at this
  rw [buildBytes, List.take_append_of_le_length (by omega), List.take_of_length_le (by omega)]

/-- The checksum of a built packet. -/
theorem last_build {s : List Byte} (h : s.length ≤ 16) : (buildBytes s)[17]? = some (crc8 (packetBody s)) := by
  have := packetBody_length s h
  simp only [bodyLen] at this
  rw [buildBytes, List.getElem?_append_right (by omega)]
  simp [this]

/-- What BUILD makes is well formed (R62). -/
theorem wf_build {s : List Byte} {p : Packet} (h : buildPacket s = some p) : wellFormedPacket p = true := by
  have hlb := lengthByte_build h
  obtain ⟨hl, hb⟩ := buildPacket_eq_some.1 h
  have h17 := take_build hl
  have hc := last_build hl
  simp only [payloadMax] at hl
  simp only [wellFormedPacket, hb, hlb, bodyLen, h17, hc, payloadMax]
  simp [hl, packetBody, show 1 + s.length = s.length + 1 by omega]

/-! ### Classes -/

@[simp] theorem classify_ack : classify ackPkt = .ack := by simp [classify]

@[simp] theorem classify_retx : classify retxPkt = .retx := by
  simp [classify, ackPkt_ne_retxPkt.symm]

theorem classify_other {q : Packet} (ha : q ≠ ackPkt) (hr : q ≠ retxPkt) : classify q = .other := by
  simp [classify, ha, hr]

/-- The three classes, each with its equality. -/
theorem classify_cases (q : Packet) :
    (q = ackPkt ∧ classify q = .ack) ∨ (q = retxPkt ∧ classify q = .retx) ∨
      (q ≠ ackPkt ∧ q ≠ retxPkt ∧ classify q = .other) := by
  by_cases ha : q = ackPkt
  · exact .inl ⟨ha, by simp [ha]⟩
  · by_cases hr : q = retxPkt
    · exact .inr (.inl ⟨hr, by simp [hr]⟩)
    · exact .inr (.inr ⟨ha, hr, classify_other ha hr⟩)

/-! ### CRC-8 as a fold -/

@[simp] theorem crc8_nil : crc8 [] = 0#8 := rfl

theorem crc8_concat (s : List Byte) (b : Byte) : crc8 (s ++ [b]) = crcByte (crc8 s) b := by
  simp [crc8]

theorem crcRounds_succ (n : Nat) (c : Byte) : crcRounds (n + 1) c = crcRounds n (crcRound c) := rfl

theorem crcRounds_add (m n : Nat) (c : Byte) : crcRounds (m + n) c = crcRounds n (crcRounds m c) := by
  induction m generalizing c with
  | zero => simp [crcRounds]
  | succ m ih => rw [Nat.succ_add, crcRounds_succ, ih, crcRounds_succ]

end Sys2Proof.Machine
end

