-- ==== Sys2Proof/Laws/State.lean ====
section
/-! SUPPORT. What each named write of the state does to each field, true by unfolding: no later proof unfolds a
record update. -/

namespace Sys2Proof.Machine

/-! ### tx -/

@[simp] theorem State.tx_acc (s : State) (bs : List Byte) : (s.tx bs).acc = s.acc := rfl

@[simp] theorem State.tx_rxq (s : State) (bs : List Byte) : (s.tx bs).rxq = s.rxq := rfl

@[simp] theorem State.tx_last (s : State) (bs : List Byte) : (s.tx bs).last = s.last := rfl

@[simp] theorem State.tx_txs (s : State) (bs : List Byte) : (s.tx bs).txs = s.txs := rfl

@[simp] theorem State.tx_txlog (s : State) (bs : List Byte) : (s.tx bs).txlog = s.txlog ++ bs := rfl

@[simp] theorem State.tx_rsp (s : State) (bs : List Byte) : (s.tx bs).rsp = s.rsp := rfl

@[simp] theorem State.tx_pend (s : State) (bs : List Byte) : (s.tx bs).pend = s.pend := rfl

@[simp] theorem State.tx_hst (s : State) (bs : List Byte) : (s.tx bs).hst = s.hst := rfl

@[simp] theorem State.tx_fw (s : State) (bs : List Byte) : (s.tx bs).fw = s.fw := rfl

@[simp] theorem State.tx_off (s : State) (bs : List Byte) : (s.tx bs).off = s.off := rfl

@[simp] theorem State.tx_phase (s : State) (bs : List Byte) : (s.tx bs).phase = s.phase := rfl

@[simp] theorem State.tx_reports (s : State) (bs : List Byte) : (s.tx bs).reports = s.reports := rfl

@[simp] theorem State.tx_faults (s : State) (bs : List Byte) : (s.tx bs).faults = s.faults := rfl

@[simp] theorem State.tx_cfg (s : State) (bs : List Byte) : (s.tx bs).cfg = s.cfg := rfl

@[simp] theorem State.tx_schedule (s : State) (bs : List Byte) : (s.tx bs).schedule = s.schedule := rfl

/-! ### pushBack -/

@[simp] theorem State.pushBack_acc (s : State) (p : Packet) : (s.pushBack p).acc = s.acc := rfl

@[simp] theorem State.pushBack_rxq (s : State) (p : Packet) : (s.pushBack p).rxq = s.rxq ++ [p] := rfl

@[simp] theorem State.pushBack_last (s : State) (p : Packet) : (s.pushBack p).last = s.last := rfl

@[simp] theorem State.pushBack_txs (s : State) (p : Packet) : (s.pushBack p).txs = s.txs := rfl

@[simp] theorem State.pushBack_txlog (s : State) (p : Packet) : (s.pushBack p).txlog = s.txlog := rfl

@[simp] theorem State.pushBack_rsp (s : State) (p : Packet) : (s.pushBack p).rsp = s.rsp := rfl

@[simp] theorem State.pushBack_pend (s : State) (p : Packet) : (s.pushBack p).pend = s.pend := rfl

@[simp] theorem State.pushBack_hst (s : State) (p : Packet) : (s.pushBack p).hst = s.hst := rfl

@[simp] theorem State.pushBack_fw (s : State) (p : Packet) : (s.pushBack p).fw = s.fw := rfl

@[simp] theorem State.pushBack_off (s : State) (p : Packet) : (s.pushBack p).off = s.off := rfl

@[simp] theorem State.pushBack_phase (s : State) (p : Packet) : (s.pushBack p).phase = s.phase := rfl

@[simp] theorem State.pushBack_reports (s : State) (p : Packet) : (s.pushBack p).reports = s.reports := rfl

@[simp] theorem State.pushBack_faults (s : State) (p : Packet) : (s.pushBack p).faults = s.faults := rfl

@[simp] theorem State.pushBack_cfg (s : State) (p : Packet) : (s.pushBack p).cfg = s.cfg := rfl

@[simp] theorem State.pushBack_schedule (s : State) (p : Packet) : (s.pushBack p).schedule = s.schedule := rfl

/-! ### withAcc -/

@[simp] theorem State.withAcc_acc (s : State) (bs : List Byte) : (s.withAcc bs).acc = bs := rfl

@[simp] theorem State.withAcc_rxq (s : State) (bs : List Byte) : (s.withAcc bs).rxq = s.rxq := rfl

@[simp] theorem State.withAcc_last (s : State) (bs : List Byte) : (s.withAcc bs).last = s.last := rfl

@[simp] theorem State.withAcc_txs (s : State) (bs : List Byte) : (s.withAcc bs).txs = s.txs := rfl

@[simp] theorem State.withAcc_txlog (s : State) (bs : List Byte) : (s.withAcc bs).txlog = s.txlog := rfl

@[simp] theorem State.withAcc_rsp (s : State) (bs : List Byte) : (s.withAcc bs).rsp = s.rsp := rfl

@[simp] theorem State.withAcc_pend (s : State) (bs : List Byte) : (s.withAcc bs).pend = s.pend := rfl

@[simp] theorem State.withAcc_hst (s : State) (bs : List Byte) : (s.withAcc bs).hst = s.hst := rfl

@[simp] theorem State.withAcc_fw (s : State) (bs : List Byte) : (s.withAcc bs).fw = s.fw := rfl

@[simp] theorem State.withAcc_off (s : State) (bs : List Byte) : (s.withAcc bs).off = s.off := rfl

@[simp] theorem State.withAcc_phase (s : State) (bs : List Byte) : (s.withAcc bs).phase = s.phase := rfl

@[simp] theorem State.withAcc_reports (s : State) (bs : List Byte) : (s.withAcc bs).reports = s.reports := rfl

@[simp] theorem State.withAcc_faults (s : State) (bs : List Byte) : (s.withAcc bs).faults = s.faults := rfl

@[simp] theorem State.withAcc_cfg (s : State) (bs : List Byte) : (s.withAcc bs).cfg = s.cfg := rfl

@[simp] theorem State.withAcc_schedule (s : State) (bs : List Byte) : (s.withAcc bs).schedule = s.schedule := rfl

/-! ### withRxq -/

@[simp] theorem State.withRxq_acc (s : State) (q : List Packet) : (s.withRxq q).acc = s.acc := rfl

@[simp] theorem State.withRxq_rxq (s : State) (q : List Packet) : (s.withRxq q).rxq = q := rfl

@[simp] theorem State.withRxq_last (s : State) (q : List Packet) : (s.withRxq q).last = s.last := rfl

@[simp] theorem State.withRxq_txs (s : State) (q : List Packet) : (s.withRxq q).txs = s.txs := rfl

@[simp] theorem State.withRxq_txlog (s : State) (q : List Packet) : (s.withRxq q).txlog = s.txlog := rfl

@[simp] theorem State.withRxq_rsp (s : State) (q : List Packet) : (s.withRxq q).rsp = s.rsp := rfl

@[simp] theorem State.withRxq_pend (s : State) (q : List Packet) : (s.withRxq q).pend = s.pend := rfl

@[simp] theorem State.withRxq_hst (s : State) (q : List Packet) : (s.withRxq q).hst = s.hst := rfl

@[simp] theorem State.withRxq_fw (s : State) (q : List Packet) : (s.withRxq q).fw = s.fw := rfl

@[simp] theorem State.withRxq_off (s : State) (q : List Packet) : (s.withRxq q).off = s.off := rfl

@[simp] theorem State.withRxq_phase (s : State) (q : List Packet) : (s.withRxq q).phase = s.phase := rfl

@[simp] theorem State.withRxq_reports (s : State) (q : List Packet) : (s.withRxq q).reports = s.reports := rfl

@[simp] theorem State.withRxq_faults (s : State) (q : List Packet) : (s.withRxq q).faults = s.faults := rfl

@[simp] theorem State.withRxq_cfg (s : State) (q : List Packet) : (s.withRxq q).cfg = s.cfg := rfl

@[simp] theorem State.withRxq_schedule (s : State) (q : List Packet) : (s.withRxq q).schedule = s.schedule := rfl

/-! ### record -/

@[simp] theorem State.record_acc (s : State) (p : Packet) : (s.record p).acc = s.acc := rfl

@[simp] theorem State.record_rxq (s : State) (p : Packet) : (s.record p).rxq = s.rxq := rfl

@[simp] theorem State.record_last (s : State) (p : Packet) : (s.record p).last = some p := rfl

@[simp] theorem State.record_txs (s : State) (p : Packet) : (s.record p).txs = s.txs := rfl

@[simp] theorem State.record_txlog (s : State) (p : Packet) : (s.record p).txlog = s.txlog := rfl

@[simp] theorem State.record_rsp (s : State) (p : Packet) : (s.record p).rsp = s.rsp := rfl

@[simp] theorem State.record_pend (s : State) (p : Packet) : (s.record p).pend = s.pend := rfl

@[simp] theorem State.record_hst (s : State) (p : Packet) : (s.record p).hst = s.hst := rfl

@[simp] theorem State.record_fw (s : State) (p : Packet) : (s.record p).fw = s.fw := rfl

@[simp] theorem State.record_off (s : State) (p : Packet) : (s.record p).off = s.off := rfl

@[simp] theorem State.record_phase (s : State) (p : Packet) : (s.record p).phase = s.phase := rfl

@[simp] theorem State.record_reports (s : State) (p : Packet) : (s.record p).reports = s.reports := rfl

@[simp] theorem State.record_faults (s : State) (p : Packet) : (s.record p).faults = s.faults := rfl

@[simp] theorem State.record_cfg (s : State) (p : Packet) : (s.record p).cfg = s.cfg := rfl

@[simp] theorem State.record_schedule (s : State) (p : Packet) : (s.record p).schedule = s.schedule := rfl

/-! ### withTxs -/

@[simp] theorem State.withTxs_acc (s : State) (t : TxState) : (s.withTxs t).acc = s.acc := rfl

@[simp] theorem State.withTxs_rxq (s : State) (t : TxState) : (s.withTxs t).rxq = s.rxq := rfl

@[simp] theorem State.withTxs_last (s : State) (t : TxState) : (s.withTxs t).last = s.last := rfl

@[simp] theorem State.withTxs_txs (s : State) (t : TxState) : (s.withTxs t).txs = t := rfl

@[simp] theorem State.withTxs_txlog (s : State) (t : TxState) : (s.withTxs t).txlog = s.txlog := rfl

@[simp] theorem State.withTxs_rsp (s : State) (t : TxState) : (s.withTxs t).rsp = s.rsp := rfl

@[simp] theorem State.withTxs_pend (s : State) (t : TxState) : (s.withTxs t).pend = s.pend := rfl

@[simp] theorem State.withTxs_hst (s : State) (t : TxState) : (s.withTxs t).hst = s.hst := rfl

@[simp] theorem State.withTxs_fw (s : State) (t : TxState) : (s.withTxs t).fw = s.fw := rfl

@[simp] theorem State.withTxs_off (s : State) (t : TxState) : (s.withTxs t).off = s.off := rfl

@[simp] theorem State.withTxs_phase (s : State) (t : TxState) : (s.withTxs t).phase = s.phase := rfl

@[simp] theorem State.withTxs_reports (s : State) (t : TxState) : (s.withTxs t).reports = s.reports := rfl

@[simp] theorem State.withTxs_faults (s : State) (t : TxState) : (s.withTxs t).faults = s.faults := rfl

@[simp] theorem State.withTxs_cfg (s : State) (t : TxState) : (s.withTxs t).cfg = s.cfg := rfl

@[simp] theorem State.withTxs_schedule (s : State) (t : TxState) : (s.withTxs t).schedule = s.schedule := rfl

/-! ### reply -/

@[simp] theorem State.reply_acc (s : State) (r : Reply) : (s.reply r).acc = s.acc := rfl

@[simp] theorem State.reply_rxq (s : State) (r : Reply) : (s.reply r).rxq = s.rxq := rfl

@[simp] theorem State.reply_last (s : State) (r : Reply) : (s.reply r).last = s.last := rfl

@[simp] theorem State.reply_txs (s : State) (r : Reply) : (s.reply r).txs = s.txs := rfl

@[simp] theorem State.reply_txlog (s : State) (r : Reply) : (s.reply r).txlog = s.txlog := rfl

@[simp] theorem State.reply_rsp (s : State) (r : Reply) : (s.reply r).rsp = some r := rfl

@[simp] theorem State.reply_pend (s : State) (r : Reply) : (s.reply r).pend = s.pend := rfl

@[simp] theorem State.reply_hst (s : State) (r : Reply) : (s.reply r).hst = s.hst := rfl

@[simp] theorem State.reply_fw (s : State) (r : Reply) : (s.reply r).fw = s.fw := rfl

@[simp] theorem State.reply_off (s : State) (r : Reply) : (s.reply r).off = s.off := rfl

@[simp] theorem State.reply_phase (s : State) (r : Reply) : (s.reply r).phase = s.phase := rfl

@[simp] theorem State.reply_reports (s : State) (r : Reply) : (s.reply r).reports = s.reports := rfl

@[simp] theorem State.reply_faults (s : State) (r : Reply) : (s.reply r).faults = s.faults := rfl

@[simp] theorem State.reply_cfg (s : State) (r : Reply) : (s.reply r).cfg = s.cfg := rfl

@[simp] theorem State.reply_schedule (s : State) (r : Reply) : (s.reply r).schedule = s.schedule := rfl

/-! ### awaitReply -/

@[simp] theorem State.awaitReply_acc (s : State) : (s.awaitReply).acc = s.acc := rfl

@[simp] theorem State.awaitReply_rxq (s : State) : (s.awaitReply).rxq = s.rxq := rfl

@[simp] theorem State.awaitReply_last (s : State) : (s.awaitReply).last = s.last := rfl

@[simp] theorem State.awaitReply_txs (s : State) : (s.awaitReply).txs = s.txs := rfl

@[simp] theorem State.awaitReply_txlog (s : State) : (s.awaitReply).txlog = s.txlog := rfl

@[simp] theorem State.awaitReply_rsp (s : State) : (s.awaitReply).rsp = none := rfl

@[simp] theorem State.awaitReply_pend (s : State) : (s.awaitReply).pend = s.pend := rfl

@[simp] theorem State.awaitReply_hst (s : State) : (s.awaitReply).hst = s.hst := rfl

@[simp] theorem State.awaitReply_fw (s : State) : (s.awaitReply).fw = s.fw := rfl

@[simp] theorem State.awaitReply_off (s : State) : (s.awaitReply).off = s.off := rfl

@[simp] theorem State.awaitReply_phase (s : State) : (s.awaitReply).phase = s.phase := rfl

@[simp] theorem State.awaitReply_reports (s : State) : (s.awaitReply).reports = s.reports := rfl

@[simp] theorem State.awaitReply_faults (s : State) : (s.awaitReply).faults = s.faults := rfl

@[simp] theorem State.awaitReply_cfg (s : State) : (s.awaitReply).cfg = s.cfg := rfl

@[simp] theorem State.awaitReply_schedule (s : State) : (s.awaitReply).schedule = s.schedule := rfl

/-! ### suspend -/

@[simp] theorem State.suspend_acc (s : State) (w : Pend) : (s.suspend w).acc = s.acc := rfl

@[simp] theorem State.suspend_rxq (s : State) (w : Pend) : (s.suspend w).rxq = s.rxq := rfl

@[simp] theorem State.suspend_last (s : State) (w : Pend) : (s.suspend w).last = s.last := rfl

@[simp] theorem State.suspend_txs (s : State) (w : Pend) : (s.suspend w).txs = s.txs := rfl

@[simp] theorem State.suspend_txlog (s : State) (w : Pend) : (s.suspend w).txlog = s.txlog := rfl

@[simp] theorem State.suspend_rsp (s : State) (w : Pend) : (s.suspend w).rsp = none := rfl

@[simp] theorem State.suspend_pend (s : State) (w : Pend) : (s.suspend w).pend = some w := rfl

@[simp] theorem State.suspend_hst (s : State) (w : Pend) : (s.suspend w).hst = s.hst := rfl

@[simp] theorem State.suspend_fw (s : State) (w : Pend) : (s.suspend w).fw = s.fw := rfl

@[simp] theorem State.suspend_off (s : State) (w : Pend) : (s.suspend w).off = s.off := rfl

@[simp] theorem State.suspend_phase (s : State) (w : Pend) : (s.suspend w).phase = s.phase := rfl

@[simp] theorem State.suspend_reports (s : State) (w : Pend) : (s.suspend w).reports = s.reports := rfl

@[simp] theorem State.suspend_faults (s : State) (w : Pend) : (s.suspend w).faults = s.faults := rfl

@[simp] theorem State.suspend_cfg (s : State) (w : Pend) : (s.suspend w).cfg = s.cfg := rfl

@[simp] theorem State.suspend_schedule (s : State) (w : Pend) : (s.suspend w).schedule = s.schedule := rfl

/-! ### release -/

@[simp] theorem State.release_acc (s : State) (r : Reply) : (s.release r).acc = s.acc := rfl

@[simp] theorem State.release_rxq (s : State) (r : Reply) : (s.release r).rxq = s.rxq := rfl

@[simp] theorem State.release_last (s : State) (r : Reply) : (s.release r).last = s.last := rfl

@[simp] theorem State.release_txs (s : State) (r : Reply) : (s.release r).txs = s.txs := rfl

@[simp] theorem State.release_txlog (s : State) (r : Reply) : (s.release r).txlog = s.txlog := rfl

@[simp] theorem State.release_rsp (s : State) (r : Reply) : (s.release r).rsp = some r := rfl

@[simp] theorem State.release_pend (s : State) (r : Reply) : (s.release r).pend = none := rfl

@[simp] theorem State.release_hst (s : State) (r : Reply) : (s.release r).hst = s.hst := rfl

@[simp] theorem State.release_fw (s : State) (r : Reply) : (s.release r).fw = s.fw := rfl

@[simp] theorem State.release_off (s : State) (r : Reply) : (s.release r).off = s.off := rfl

@[simp] theorem State.release_phase (s : State) (r : Reply) : (s.release r).phase = s.phase := rfl

@[simp] theorem State.release_reports (s : State) (r : Reply) : (s.release r).reports = s.reports := rfl

@[simp] theorem State.release_faults (s : State) (r : Reply) : (s.release r).faults = s.faults := rfl

@[simp] theorem State.release_cfg (s : State) (r : Reply) : (s.release r).cfg = s.cfg := rfl

@[simp] theorem State.release_schedule (s : State) (r : Reply) : (s.release r).schedule = s.schedule := rfl

/-! ### withPhase -/

@[simp] theorem State.withPhase_acc (s : State) (ph : Phase) : (s.withPhase ph).acc = s.acc := rfl

@[simp] theorem State.withPhase_rxq (s : State) (ph : Phase) : (s.withPhase ph).rxq = s.rxq := rfl

@[simp] theorem State.withPhase_last (s : State) (ph : Phase) : (s.withPhase ph).last = s.last := rfl

@[simp] theorem State.withPhase_txs (s : State) (ph : Phase) : (s.withPhase ph).txs = s.txs := rfl

@[simp] theorem State.withPhase_txlog (s : State) (ph : Phase) : (s.withPhase ph).txlog = s.txlog := rfl

@[simp] theorem State.withPhase_rsp (s : State) (ph : Phase) : (s.withPhase ph).rsp = s.rsp := rfl

@[simp] theorem State.withPhase_pend (s : State) (ph : Phase) : (s.withPhase ph).pend = s.pend := rfl

@[simp] theorem State.withPhase_hst (s : State) (ph : Phase) : (s.withPhase ph).hst = s.hst := rfl

@[simp] theorem State.withPhase_fw (s : State) (ph : Phase) : (s.withPhase ph).fw = s.fw := rfl

@[simp] theorem State.withPhase_off (s : State) (ph : Phase) : (s.withPhase ph).off = s.off := rfl

@[simp] theorem State.withPhase_phase (s : State) (ph : Phase) : (s.withPhase ph).phase = ph := rfl

@[simp] theorem State.withPhase_reports (s : State) (ph : Phase) : (s.withPhase ph).reports = s.reports := rfl

@[simp] theorem State.withPhase_faults (s : State) (ph : Phase) : (s.withPhase ph).faults = s.faults := rfl

@[simp] theorem State.withPhase_cfg (s : State) (ph : Phase) : (s.withPhase ph).cfg = s.cfg := rfl

@[simp] theorem State.withPhase_schedule (s : State) (ph : Phase) : (s.withPhase ph).schedule = s.schedule := rfl

/-! ### enter -/

@[simp] theorem State.enter_acc (s : State) (h : HostState) : (s.enter h).acc = s.acc := rfl

@[simp] theorem State.enter_rxq (s : State) (h : HostState) : (s.enter h).rxq = s.rxq := rfl

@[simp] theorem State.enter_last (s : State) (h : HostState) : (s.enter h).last = s.last := rfl

@[simp] theorem State.enter_txs (s : State) (h : HostState) : (s.enter h).txs = s.txs := rfl

@[simp] theorem State.enter_txlog (s : State) (h : HostState) : (s.enter h).txlog = s.txlog := rfl

@[simp] theorem State.enter_rsp (s : State) (h : HostState) : (s.enter h).rsp = s.rsp := rfl

@[simp] theorem State.enter_pend (s : State) (h : HostState) : (s.enter h).pend = s.pend := rfl

@[simp] theorem State.enter_hst (s : State) (h : HostState) : (s.enter h).hst = h := rfl

@[simp] theorem State.enter_fw (s : State) (h : HostState) : (s.enter h).fw = s.fw := rfl

@[simp] theorem State.enter_off (s : State) (h : HostState) : (s.enter h).off = s.off := rfl

@[simp] theorem State.enter_phase (s : State) (h : HostState) : (s.enter h).phase = .ready := rfl

@[simp] theorem State.enter_reports (s : State) (h : HostState) :
    (s.enter h).reports = if h = s.hst then s.reports else s.reports ++ [.moved h] := rfl

@[simp] theorem State.enter_faults (s : State) (h : HostState) : (s.enter h).faults = s.faults := rfl

@[simp] theorem State.enter_cfg (s : State) (h : HostState) : (s.enter h).cfg = s.cfg := rfl

@[simp] theorem State.enter_schedule (s : State) (h : HostState) : (s.enter h).schedule = s.schedule := rfl

/-! ### withOff -/

@[simp] theorem State.withOff_acc (s : State) (n : Nat) : (s.withOff n).acc = s.acc := rfl

@[simp] theorem State.withOff_rxq (s : State) (n : Nat) : (s.withOff n).rxq = s.rxq := rfl

@[simp] theorem State.withOff_last (s : State) (n : Nat) : (s.withOff n).last = s.last := rfl

@[simp] theorem State.withOff_txs (s : State) (n : Nat) : (s.withOff n).txs = s.txs := rfl

@[simp] theorem State.withOff_txlog (s : State) (n : Nat) : (s.withOff n).txlog = s.txlog := rfl

@[simp] theorem State.withOff_rsp (s : State) (n : Nat) : (s.withOff n).rsp = s.rsp := rfl

@[simp] theorem State.withOff_pend (s : State) (n : Nat) : (s.withOff n).pend = s.pend := rfl

@[simp] theorem State.withOff_hst (s : State) (n : Nat) : (s.withOff n).hst = s.hst := rfl

@[simp] theorem State.withOff_fw (s : State) (n : Nat) : (s.withOff n).fw = s.fw := rfl

@[simp] theorem State.withOff_off (s : State) (n : Nat) : (s.withOff n).off = n := rfl

@[simp] theorem State.withOff_phase (s : State) (n : Nat) : (s.withOff n).phase = s.phase := rfl

@[simp] theorem State.withOff_reports (s : State) (n : Nat) :
    (s.withOff n).reports = s.reports ++ [.remaining (s.fw.length - n)] := rfl

@[simp] theorem State.withOff_faults (s : State) (n : Nat) : (s.withOff n).faults = s.faults := rfl

@[simp] theorem State.withOff_cfg (s : State) (n : Nat) : (s.withOff n).cfg = s.cfg := rfl

@[simp] theorem State.withOff_schedule (s : State) (n : Nat) : (s.withOff n).schedule = s.schedule := rfl

/-! ### withSchedule -/

@[simp] theorem State.withSchedule_acc (s : State) (es : List Event) : (s.withSchedule es).acc = s.acc := rfl

@[simp] theorem State.withSchedule_rxq (s : State) (es : List Event) : (s.withSchedule es).rxq = s.rxq := rfl

@[simp] theorem State.withSchedule_last (s : State) (es : List Event) : (s.withSchedule es).last = s.last := rfl

@[simp] theorem State.withSchedule_txs (s : State) (es : List Event) : (s.withSchedule es).txs = s.txs := rfl

@[simp] theorem State.withSchedule_txlog (s : State) (es : List Event) : (s.withSchedule es).txlog = s.txlog := rfl

@[simp] theorem State.withSchedule_rsp (s : State) (es : List Event) : (s.withSchedule es).rsp = s.rsp := rfl

@[simp] theorem State.withSchedule_pend (s : State) (es : List Event) : (s.withSchedule es).pend = s.pend := rfl

@[simp] theorem State.withSchedule_hst (s : State) (es : List Event) : (s.withSchedule es).hst = s.hst := rfl

@[simp] theorem State.withSchedule_fw (s : State) (es : List Event) : (s.withSchedule es).fw = s.fw := rfl

@[simp] theorem State.withSchedule_off (s : State) (es : List Event) : (s.withSchedule es).off = s.off := rfl

@[simp] theorem State.withSchedule_phase (s : State) (es : List Event) : (s.withSchedule es).phase = s.phase := rfl

@[simp] theorem State.withSchedule_reports (s : State) (es : List Event) : (s.withSchedule es).reports = s.reports := rfl

@[simp] theorem State.withSchedule_faults (s : State) (es : List Event) : (s.withSchedule es).faults = s.faults := rfl

@[simp] theorem State.withSchedule_cfg (s : State) (es : List Event) : (s.withSchedule es).cfg = s.cfg := rfl

@[simp] theorem State.withSchedule_schedule (s : State) (es : List Event) : (s.withSchedule es).schedule = es := rfl

/-! ### raise -/

@[simp] theorem State.raise_acc (s : State) (f : RaisedFault) : (s.raise f).acc = s.acc := rfl

@[simp] theorem State.raise_rxq (s : State) (f : RaisedFault) : (s.raise f).rxq = s.rxq := rfl

@[simp] theorem State.raise_last (s : State) (f : RaisedFault) : (s.raise f).last = s.last := rfl

@[simp] theorem State.raise_txs (s : State) (f : RaisedFault) : (s.raise f).txs = s.txs := rfl

@[simp] theorem State.raise_txlog (s : State) (f : RaisedFault) : (s.raise f).txlog = s.txlog := rfl

@[simp] theorem State.raise_rsp (s : State) (f : RaisedFault) : (s.raise f).rsp = some (.fault f) := rfl

@[simp] theorem State.raise_pend (s : State) (f : RaisedFault) : (s.raise f).pend = s.pend := rfl

@[simp] theorem State.raise_hst (s : State) (f : RaisedFault) : (s.raise f).hst = s.hst := rfl

@[simp] theorem State.raise_fw (s : State) (f : RaisedFault) : (s.raise f).fw = s.fw := rfl

@[simp] theorem State.raise_off (s : State) (f : RaisedFault) : (s.raise f).off = s.off := rfl

@[simp] theorem State.raise_phase (s : State) (f : RaisedFault) : (s.raise f).phase = s.phase := rfl

@[simp] theorem State.raise_reports (s : State) (f : RaisedFault) : (s.raise f).reports = s.reports := rfl

@[simp] theorem State.raise_faults (s : State) (f : RaisedFault) : (s.raise f).faults = s.faults ++ [f] := rfl

@[simp] theorem State.raise_cfg (s : State) (f : RaisedFault) : (s.raise f).cfg = s.cfg := rfl

@[simp] theorem State.raise_schedule (s : State) (f : RaisedFault) : (s.raise f).schedule = s.schedule := rfl

end Sys2Proof.Machine
end

