-- ==== Sys2Proof/Laws/Ops.lean ====
section
/-! SUPPORT. What each shared operation can do, once: provers cite these and do not unfold the operations. -/

namespace Sys2Proof.Machine

/-! ### The host's freedom, room, and the session's begin -/

@[simp] theorem State.free_iff (s : State) : s.free = true ↔ s.txs = .idle ∧ s.pend = none := by
  simp [State.free]

theorem State.free_of {s : State} (h : s.txs = .idle) (hp : s.pend = none) : s.free = true := by
  simp [h, hp]

theorem State.not_free_of_wait {s : State} (h : s.txs = .wait) : s.free = false := by
  simp [State.free, h]

theorem State.rxqFull_of_room {s : State} (h : s.room 1) : s.rxqFull = false := by
  unfold State.rxqFull State.room at *
  cases hq : s.cfg.qdepth with
  | none => rfl
  | some d => have := h d hq; simp; omega

/-- `t` differs from `s` at most in where the host's session stands: HST, OFF, the phase and the reports. -/
def State.SamePlaceAside (s t : State) : Prop :=
  ∃ h n p rs, t = { s with hst := h, off := n, phase := p, reports := rs }

theorem State.SamePlaceAside.refl (s : State) : s.SamePlaceAside s := ⟨s.hst, s.off, s.phase, s.reports, rfl⟩

theorem State.SamePlaceAside.trans {s t u : State} (h : s.SamePlaceAside t) (h' : t.SamePlaceAside u) :
    s.SamePlaceAside u := by
  obtain ⟨_, _, _, _, rfl⟩ := h
  obtain ⟨a, b, c, d, rfl⟩ := h'
  exact ⟨a, b, c, d, rfl⟩

theorem State.withPhase_aside (s : State) (ph : Phase) : s.SamePlaceAside (s.withPhase ph) :=
  ⟨s.hst, s.off, ph, s.reports, rfl⟩

theorem State.enter_aside (s : State) (h : HostState) : s.SamePlaceAside (s.enter h) :=
  ⟨h, s.off, .ready, if h = s.hst then s.reports else s.reports ++ [.moved h], rfl⟩

theorem State.withOff_aside (s : State) (n : Nat) : s.SamePlaceAside (s.withOff n) :=
  ⟨s.hst, n, s.phase, s.reports ++ [.remaining (s.fw.length - n)], rfl⟩

theorem State.sent_aside (s : State) : s.SamePlaceAside s.sent := by
  unfold State.sent
  split
  · exact s.enter_aside _
  · exact s.enter_aside _
  · exact s.enter_aside _
  · simp only
    split
    · exact (s.withOff_aside _).trans (State.withPhase_aside _ _)
    · exact (s.withOff_aside _).trans (State.enter_aside _ _)
  · exact s.withPhase_aside _

theorem State.settle_aside (s : State) : s.SamePlaceAside s.settle := by
  unfold State.settle
  split
  · exact s.sent_aside
  · exact .refl s

/-- The beginning of an operation moves only the session's place. -/
theorem State.begin_aside (s : State) (op : SessionOp) (ph : Phase) : s.SamePlaceAside (s.begin op ph) := by
  unfold State.begin
  split
  · exact s.settle_aside.trans (State.withPhase_aside _ _)
  · exact s.settle_aside

/-- The end of a receive moves only the session's place. -/
theorem State.received_aside (s : State) (b : Bool) : s.SamePlaceAside (s.received b) := by
  unfold State.received
  split
  · exact s.enter_aside _
  · exact .refl s

theorem State.settle_of_ne {s : State} (h : s.phase ≠ .sending) : s.settle = s := by
  simp [State.settle, h]

/-- Beginning the session's next operation moves the phase. -/
theorem State.begin_of_next {s : State} {op : SessionOp} {ph : Phase} (h : s.phase ≠ .sending)
    (hn : s.sessionNext = some op) : s.begin op ph = s.withPhase ph := by
  simp [State.begin, State.settle_of_ne h, hn]

/-- Beginning anything else moves nothing. -/
theorem State.begin_of_ne {s : State} {op : SessionOp} {ph : Phase} (h : s.phase ≠ .sending)
    (hn : s.sessionNext ≠ some op) : s.begin op ph = s := by
  simp [State.begin, State.settle_of_ne h, hn]

theorem State.begin_unstarted {s : State} {op : SessionOp} {ph : Phase} (h : s.phase = .unstarted) :
    s.begin op ph = s := by
  refine State.begin_of_ne (by simp [h]) ?_
  simp [State.sessionNext, h]

theorem State.received_of_ne {s : State} {b : Bool} (h : s.phase ≠ .waiting) : s.received b = s := by
  simp [State.received, h]

/-! ### Issuing -/

theorem transmitPacket_free {p : Packet} {s : State} (h : s.txs = .idle) (hp : s.pend = none) :
    transmitPacket p s =
      .next { s with txlog := s.txlog ++ p.bytes, last := some p, txs := .wait, rsp := none } := by
  simp only [transmitPacket, State.free_of h hp, if_true]; rfl

theorem transmitPacket_busy {p : Packet} {s : State} (h : ¬ s.free = true) :
    transmitPacket p s = .refused .busy := by simp only [transmitPacket, if_neg h]

/-- A TRANSMIT that is issued was issued by a free host, and does this. -/
theorem transmitPacket_next {p : Packet} {s t : State} (h : transmitPacket p s = .next t) :
    s.txs = .idle ∧ s.pend = none ∧
      t = { s with txlog := s.txlog ++ p.bytes, last := some p, txs := .wait, rsp := none } := by
  by_cases hf : s.free = true
  · obtain ⟨h1, h2⟩ := (State.free_iff s).1 hf
    rw [transmitPacket_free h1 h2] at h
    exact ⟨h1, h2, (Host.Outcome.next.inj h).symm⟩
  · rw [transmitPacket_busy hf] at h; cases h

theorem writeRaw_free {bs : List Byte} {s : State} (h : s.txs = .idle) (hp : s.pend = none) :
    writeRaw bs s = .next { s with txlog := s.txlog ++ bs, rsp := some .done } := by
  simp only [writeRaw, State.free_of h hp, if_true]; rfl

theorem writeRaw_busy {bs : List Byte} {s : State} (h : ¬ s.free = true) :
    writeRaw bs s = .refused .busy := by simp only [writeRaw, if_neg h]

theorem writeRaw_next {bs : List Byte} {s t : State} (h : writeRaw bs s = .next t) :
    s.txs = .idle ∧ s.pend = none ∧ t = { s with txlog := s.txlog ++ bs, rsp := some .done } := by
  by_cases hf : s.free = true
  · obtain ⟨h1, h2⟩ := (State.free_iff s).1 hf
    rw [writeRaw_free h1 h2] at h
    exact ⟨h1, h2, (Host.Outcome.next.inj h).symm⟩
  · rw [writeRaw_busy hf] at h; cases h

theorem issueReceive_free {w : Pend} {s : State} (h : s.txs = .idle) (hp : s.pend = none) :
    issueReceive w s = poll (s.suspend w) := by
  simp only [issueReceive, State.free_of h hp, if_true]

theorem issueReceive_busy {w : Pend} {s : State} (h : ¬ s.free = true) :
    issueReceive w s = .refused .busy := by simp only [issueReceive, if_neg h]

/-! ### Taking -/

theorem poll_nil {s : State} (h : s.rxq = []) : poll s = .next s := by simp [poll, h]

theorem poll_cons {s : State} {q : Packet} {rest : List Packet} (h : s.rxq = q :: rest) :
    poll s = consume q (s.withRxq rest) := by simp [poll, h]

theorem consume_wait {s : State} (h : s.txs = .wait) (q : Packet) : consume q s = controllerAct q s := by
  simp [consume, h]

theorem consume_idle {s : State} {w : Pend} (h : s.txs = .idle) (hp : s.pend = some w) (q : Packet) :
    consume q s = hostAct w q s := by simp [consume, h, hp]

theorem consume_none {s : State} (h : s.txs = .idle) (hp : s.pend = none) (q : Packet) :
    consume q s = .refused .noConsumer := by simp [consume, h, hp]

theorem controllerAct_ack (s : State) :
    controllerAct ackPkt s = .next { s with txs := .idle, rsp := some .done } := by
  simp [controllerAct, State.withTxs, State.reply]

theorem controllerAct_retx {s : State} {p : Packet} (h : s.last = some p) :
    controllerAct retxPkt s = .next { s with txlog := s.txlog ++ p.bytes } := by
  simp [controllerAct, h, State.tx]

theorem controllerAct_other {q : Packet} (ha : q ≠ ackPkt) (hr : q ≠ retxPkt) (s : State) :
    controllerAct q s = .next s := by simp [controllerAct, classify_other ha hr]

/-- What the controller does with a packet it has taken: one of three. -/
theorem controllerAct_next {q : Packet} {s t : State} (h : controllerAct q s = .next t) :
    (q = ackPkt ∧ t = { s with txs := .idle, rsp := some .done }) ∨
    (q = retxPkt ∧ ∃ p, s.last = some p ∧ t = { s with txlog := s.txlog ++ p.bytes }) ∨
    (q ≠ ackPkt ∧ q ≠ retxPkt ∧ t = s) := by
  rcases classify_cases q with ⟨rfl, -⟩ | ⟨rfl, hc⟩ | ⟨ha, hr, -⟩
  · rw [controllerAct_ack] at h
    exact .inl ⟨rfl, (Host.Outcome.next.inj h).symm⟩
  · unfold controllerAct at h
    rw [hc] at h
    simp only at h
    split at h
    · rename_i p hp
      exact .inr (.inl ⟨rfl, p, hp, (Host.Outcome.next.inj h).symm⟩)
    · cases h
  · rw [controllerAct_other ha hr] at h
    exact .inr (.inr ⟨ha, hr, (Host.Outcome.next.inj h).symm⟩)

/-- What the host does with a packet it has taken: its receive goes on unchanged, or is over with a completion,
and then only the session's place can have moved. -/
theorem hostAct_next {w : Pend} {q : Packet} {s t : State} (h : hostAct w q s = .next t) :
    t = s ∨ (w = .take ∧ t = s.release (.packet q)) ∨
    (∃ op, w = .await op ∧ q = opPacket op ∧ t = (s.release .done).received true) ∨
    (∃ op, w = .expect op ∧ q = opPacket op ∧ t = (s.release .ok).received true) ∨
    (∃ op, w = .expect op ∧ q ≠ opPacket op ∧ t = (s.release .mismatch).received false) := by
  unfold hostAct at h
  cases w with
  | take => exact .inr (.inl ⟨rfl, (Host.Outcome.next.inj h).symm⟩)
  | await op =>
    simp only at h
    split at h
    · rename_i hq
      exact .inr (.inr (.inl ⟨op, rfl, hq, (Host.Outcome.next.inj h).symm⟩))
    · exact .inl (Host.Outcome.next.inj h).symm
  | expect op =>
    simp only at h
    split at h
    · rename_i hq
      exact .inr (.inr (.inr (.inl ⟨op, rfl, hq, (Host.Outcome.next.inj h).symm⟩)))
    · rename_i hq
      exact .inr (.inr (.inr (.inr ⟨op, rfl, hq, (Host.Outcome.next.inj h).symm⟩)))

/-- The active consumer's take that answers a next state: nothing was queued, or the head was consumed. -/
theorem poll_next {s t : State} (h : poll s = .next t) :
    (s.rxq = [] ∧ t = s) ∨ ∃ q rest, s.rxq = q :: rest ∧ consume q (s.withRxq rest) = .next t := by
  cases hq : s.rxq with
  | nil => rw [poll_nil hq] at h; exact .inl ⟨rfl, (Host.Outcome.next.inj h).symm⟩
  | cons q rest => rw [poll_cons hq] at h; exact .inr ⟨q, rest, rfl, h⟩

/-- A consumed packet that answers a next state: the controller acted, or the host's receive did. -/
theorem consume_next {q : Packet} {s t : State} (h : consume q s = .next t) :
    (s.txs = .wait ∧ controllerAct q s = .next t) ∨
    (s.txs = .idle ∧ ∃ w, s.pend = some w ∧ hostAct w q s = .next t) := by
  cases hs : s.txs with
  | wait => rw [consume_wait hs] at h; exact .inl ⟨rfl, h⟩
  | idle =>
    cases hp : s.pend with
    | none => rw [consume_none hs hp] at h; cases h
    | some w => rw [consume_idle hs hp] at h; exact .inr ⟨rfl, w, rfl, h⟩

theorem issueReceive_next {w : Pend} {s t : State} (h : issueReceive w s = .next t) :
    s.txs = .idle ∧ s.pend = none ∧ poll (s.suspend w) = .next t := by
  by_cases hf : s.free = true
  · obtain ⟨h1, h2⟩ := (State.free_iff s).1 hf
    exact ⟨h1, h2, by rwa [issueReceive_free h1 h2] at h⟩
  · rw [issueReceive_busy hf] at h; cases h

/-! ### The host's operations -/

theorem hostMark_free {s : State} (h : s.txs = .idle) (hp : s.pend = none) :
    hostMark s = writeRaw syncMarker (s.begin .mark .marked) := by
  simp only [hostMark, State.free_of h hp, if_true]

theorem hostMark_next {s t : State} (h : hostMark s = .next t) :
    s.txs = .idle ∧ s.pend = none ∧
      t = { s.begin .mark .marked with txlog := s.txlog ++ syncMarker, rsp := some .done } := by
  by_cases hf : s.free = true
  · obtain ⟨h1, h2⟩ := (State.free_iff s).1 hf
    rw [hostMark_free h1 h2] at h
    obtain ⟨_, _, ht⟩ := writeRaw_next h
    refine ⟨h1, h2, ?_⟩
    obtain ⟨_, _, _, _, hb⟩ := s.begin_aside .mark .marked
    rw [ht, hb]
  · simp only [hostMark, if_neg hf] at h; cases h

theorem hostSend_long {payload : List Byte} {s : State} (h : payloadMax < payload.length) :
    hostSend payload s = .next (s.raise (.contractViolation payload.length)) := by
  simp [hostSend, buildPacket_of_lt h]

theorem hostSend_free {payload : List Byte} {s : State} {p : Packet} (hb : buildPacket payload = some p)
    (h : s.txs = .idle) (hp : s.pend = none) :
    hostSend payload s = transmitPacket p (s.begin (.send payload) .sending) := by
  simp only [hostSend, hb, State.free_of h hp, if_true]

/-- SENDACKED that answers a next state: BUILD faulted, or a free host issued the TRANSMIT. -/
theorem hostSend_next {payload : List Byte} {s t : State} (h : hostSend payload s = .next t) :
    (payloadMax < payload.length ∧ t = s.raise (.contractViolation payload.length)) ∨
    (s.txs = .idle ∧ s.pend = none ∧ ∃ p, buildPacket payload = some p ∧
      t = { s.begin (.send payload) .sending with
        txlog := s.txlog ++ p.bytes, last := some p, txs := .wait, rsp := none }) := by
  rcases Nat.lt_or_ge payloadMax payload.length with hl | hl
  · rw [hostSend_long hl] at h
    exact .inl ⟨hl, (Host.Outcome.next.inj h).symm⟩
  · have hb := buildPacket_of_le hl
    by_cases hf : s.free = true
    · obtain ⟨h1, h2⟩ := (State.free_iff s).1 hf
      rw [hostSend_free hb h1 h2] at h
      obtain ⟨_, _, ht⟩ := transmitPacket_next h
      refine .inr ⟨h1, h2, _, hb, ?_⟩
      obtain ⟨_, _, _, _, hs⟩ := s.begin_aside (.send payload) .sending
      rw [ht, hs]
    · simp only [hostSend, hb, if_neg hf] at h; cases h

theorem hostReceive_free {w : Pend} {s : State} (h : s.txs = .idle) (hp : s.pend = none) :
    hostReceive w s = issueReceive w (s.begin (.receive w) .waiting) := by
  simp only [hostReceive, State.free_of h hp, if_true]

theorem hostReceive_next {w : Pend} {s t : State} (h : hostReceive w s = .next t) :
    s.txs = .idle ∧ s.pend = none ∧ poll ((s.begin (.receive w) .waiting).suspend w) = .next t := by
  by_cases hf : s.free = true
  · obtain ⟨h1, h2⟩ := (State.free_iff s).1 hf
    rw [hostReceive_free h1 h2] at h
    exact ⟨h1, h2, (issueReceive_next h).2.2⟩
  · simp only [hostReceive, if_neg hf] at h; cases h

end Sys2Proof.Machine
end

