-- ==== Sys2Proof/Laws/Framer.lean ====
section
/-! SUPPORT. What EMIT, the framer's loop and RXCHUNK can do. -/

namespace Sys2Proof.Machine

theorem emitPacket_of_lt {s : State} (h : s.acc.length < 18) : emitPacket s = .next s := by
  have : toPacket (s.acc.take pktLen) = none := toPacket_of_ne (by simp [pktLen]; omega)
  simp [emitPacket, this]

/-- EMIT, enabled and with room, moves 18 bytes as one packet. -/
theorem emitPacket_of_le {s : State} (h : 18 ≤ s.acc.length) (hr : s.rxqFull = false) :
    ∃ p : Packet, p.bytes = s.acc.take 18 ∧
      emitPacket s = .next { s with acc := s.acc.drop 18, rxq := s.rxq ++ [p] } := by
  have hl : (s.acc.take 18).length = 18 := by simp; omega
  refine ⟨⟨s.acc.take 18, hl⟩, rfl, ?_⟩
  simp [emitPacket, pktLen, toPacket_of_length hl, hr, State.withAcc, State.pushBack]

theorem emitPacket_full {s : State} (h : 18 ≤ s.acc.length) (hr : s.rxqFull = true) :
    emitPacket s = .fault .queueOverflow := by
  have hl : (s.acc.take 18).length = 18 := by simp; omega
  simp [emitPacket, pktLen, toPacket_of_length hl, hr]

/-- EMIT that answers a next state: nothing was to do, or one packet moved. -/
theorem emitPacket_next {s t : State} (h : emitPacket s = .next t) :
    (s.acc.length < 18 ∧ t = s) ∨ (18 ≤ s.acc.length ∧ s.rxqFull = false ∧ ∃ p : Packet,
      p.bytes = s.acc.take 18 ∧ t = { s with acc := s.acc.drop 18, rxq := s.rxq ++ [p] }) := by
  rcases Nat.lt_or_ge s.acc.length 18 with hl | hl
  · rw [emitPacket_of_lt hl] at h
    exact .inl ⟨hl, (Host.Outcome.next.inj h).symm⟩
  · cases hr : s.rxqFull with
    | true => rw [emitPacket_full hl hr] at h; cases h
    | false =>
      obtain ⟨p, hp, he⟩ := emitPacket_of_le hl hr
      rw [he] at h
      exact .inr ⟨hl, rfl, p, hp, (Host.Outcome.next.inj h).symm⟩

/-- The framer's loop never refuses. -/
theorem drain_not_refused (n : Nat) (s : State) (r : Refusal) : drain n s ≠ .refused r := by
  induction n generalizing s with
  | zero => simp [drain]
  | succ n ih =>
    unfold drain
    split
    · rename_i hl
      cases hr : s.rxqFull with
      | true => rw [emitPacket_full hl hr]; simp
      | false =>
        obtain ⟨p, -, he⟩ := emitPacket_of_le hl hr
        rw [he]; exact ih _
    · simp

/-- The framer's loop, given enough rounds and room, cuts off every whole packet in order. -/
theorem drain_of_room (n : Nat) (s : State) (hn : s.acc.length / 18 ≤ n) (hr : s.room (s.acc.length / 18)) :
    ∃ ps : List Packet, ps.length = s.acc.length / 18 ∧
      (ps.map Packet.bytes).flatten = s.acc.take (18 * (s.acc.length / 18)) ∧
      drain n s = .next { s with acc := s.acc.drop (18 * (s.acc.length / 18)), rxq := s.rxq ++ ps } := by
  induction n generalizing s with
  | zero =>
    have h0 : s.acc.length / 18 = 0 := by omega
    exact ⟨[], by simp [h0], by simp [h0], by simp [drain, h0]⟩
  | succ n ih =>
    rcases Nat.lt_or_ge s.acc.length 18 with hl | hl
    · have h0 : s.acc.length / 18 = 0 := by omega
      refine ⟨[], by simp [h0], by simp [h0], ?_⟩
      have hnot : ¬ pktLen ≤ s.acc.length := by simp only [pktLen]; omega
      simp [drain, h0, hnot]
    · have hroom : s.room 1 := fun d hd => by
        have := hr d hd
        have : 1 ≤ s.acc.length / 18 := by omega
        omega
      obtain ⟨p, hp, he⟩ := emitPacket_of_le hl (State.rxqFull_of_room hroom)
      have hdrop : (s.acc.drop 18).length / 18 = s.acc.length / 18 - 1 := by
        simp; omega
      obtain ⟨ps, hps, hflat, hd⟩ := ih { s with acc := s.acc.drop 18, rxq := s.rxq ++ [p] }
        (by simp only [hdrop]; omega)
        (fun d hd => by
          have := hr d hd
          simp only [hdrop, List.length_append, List.length_singleton]
          omega)
      refine ⟨p :: ps, by simp only [List.length_cons, hps, hdrop]; omega, ?_, ?_⟩
      · simp only [List.map_cons, List.flatten_cons, hflat, hp, hdrop]
        have hk : 18 * (s.acc.length / 18) = 18 + 18 * (s.acc.length / 18 - 1) := by omega
        rw [hk, List.take_add]
      · have hle : pktLen ≤ s.acc.length := hl
        simp only [drain, if_pos hle, he, hd, hdrop, List.drop_drop]
        have hk : 18 + 18 * (s.acc.length / 18 - 1) = 18 * (s.acc.length / 18) := by omega
        simp [hk]

/-- The framer's loop on a queue of `d` packets that cannot take them all. -/
theorem drain_overflow (n : Nat) (s : State) (d : Nat) (hq : s.cfg.qdepth = some d) (hle : s.rxq.length ≤ d)
    (hn : s.acc.length / 18 ≤ n) (ho : d < s.rxq.length + s.acc.length / 18) :
    drain n s = .fault .queueOverflow := by
  induction n generalizing s with
  | zero => omega
  | succ n ih =>
    have hl : 18 ≤ s.acc.length := by omega
    have hl' : pktLen ≤ s.acc.length := hl
    simp only [drain, if_pos hl']
    cases hr : s.rxqFull with
    | true => rw [emitPacket_full hl hr]
    | false =>
      obtain ⟨p, -, he⟩ := emitPacket_of_le hl hr
      rw [he]
      have hlt : s.rxq.length < d := by
        simp [State.rxqFull, hq] at hr; exact hr
      refine ih _ hq ?_ ?_ ?_ <;> simp <;> omega

/-- RXCHUNK never refuses. -/
theorem receiveChunk_not_refused (chunk : List Byte) (s : State) (r : Refusal) :
    receiveChunk chunk s ≠ .refused r := drain_not_refused _ _ r

/-- The framer's loop that answers a next state has cut off every whole packet, and there was room for them. -/
theorem drain_next {n : Nat} {s t : State} (hn : s.acc.length / 18 ≤ n) (h : drain n s = .next t) :
    ∃ ps : List Packet, ps.length = s.acc.length / 18 ∧
      (ps.map Packet.bytes).flatten = s.acc.take (18 * (s.acc.length / 18)) ∧
      (∀ d, s.cfg.qdepth = some d → s.rxq.length ≤ d → s.rxq.length + ps.length ≤ d) ∧
      t = { s with acc := s.acc.drop (18 * (s.acc.length / 18)), rxq := s.rxq ++ ps } := by
  induction n generalizing s with
  | zero =>
    have h0 : s.acc.length / 18 = 0 := by omega
    refine ⟨[], by simp [h0], by simp [h0], by simp, ?_⟩
    simp only [drain, Host.Outcome.next.injEq] at h
    subst h
    simp [h0]
  | succ n ih =>
    rcases Nat.lt_or_ge s.acc.length 18 with hl | hl
    · have h0 : s.acc.length / 18 = 0 := by omega
      refine ⟨[], by simp [h0], by simp [h0], by simp, ?_⟩
      have hnot : ¬ pktLen ≤ s.acc.length := by simp only [pktLen]; omega
      simp only [drain, if_neg hnot, Host.Outcome.next.injEq] at h
      subst h
      simp [h0]
    · have hle : pktLen ≤ s.acc.length := hl
      simp only [drain, if_pos hle] at h
      cases hr : s.rxqFull with
      | true => rw [emitPacket_full hl hr] at h; cases h
      | false =>
        obtain ⟨p, hp, he⟩ := emitPacket_of_le hl hr
        rw [he] at h
        have hdrop : (s.acc.drop 18).length / 18 = s.acc.length / 18 - 1 := by simp; omega
        have hk : 18 + 18 * (s.acc.length / 18 - 1) = 18 * (s.acc.length / 18) := by omega
        obtain ⟨ps, hps, hflat, hfit, ht⟩ := ih (s := { s with acc := s.acc.drop 18, rxq := s.rxq ++ [p] })
          (by simp only [hdrop]; omega) h
        refine ⟨p :: ps, by simp only [List.length_cons, hps, hdrop]; omega, ?_, ?_, ?_⟩
        · simp only [List.map_cons, List.flatten_cons, hflat, hp, hdrop]
          rw [← hk, List.take_add]
        · intro d hd hle'
          have hlt : s.rxq.length < d := by simp [State.rxqFull, hd] at hr; exact hr
          have := hfit d hd (by simp; omega)
          simp at this ⊢
          omega
        · rw [ht]
          simp only [hdrop, List.drop_drop, hk, List.append_assoc, List.singleton_append]

/-- RXCHUNK that answers a next state. -/
theorem receiveChunk_next {chunk : List Byte} {s t : State} (h : receiveChunk chunk s = .next t) :
    ∃ ps : List Packet, ps.length = (s.acc ++ chunk).length / 18 ∧
      (ps.map Packet.bytes).flatten = (s.acc ++ chunk).take (18 * ((s.acc ++ chunk).length / 18)) ∧
      (∀ d, s.cfg.qdepth = some d → s.rxq.length ≤ d → s.rxq.length + ps.length ≤ d) ∧
      t = { s with
        acc := (s.acc ++ chunk).drop (18 * ((s.acc ++ chunk).length / 18)), rxq := s.rxq ++ ps } :=
  drain_next (s := s.withAcc (s.acc ++ chunk)) (Nat.div_le_self _ _) h

end Sys2Proof.Machine
end

