-- ==== Sys2Proof/Laws/Exec.lean ====
section
/-! SUPPORT. Everything an instruction that answers a next state can have done, said once over all constructors: a
proof about all instructions splits these ten effects and never the twenty-seven arms. -/

namespace Sys2Proof.Machine

/-- The effects of an instruction `i` from `s` to `t`. -/
inductive Ran (i : Instr) (s : State) : State → Prop
  /-- Nothing was enabled. -/
  | held (h : i = .emit ∨ i = .waitstep) : Ran i s s
  /-- A pure operation completed. -/
  | replied (r : Reply) (hi : i.isPure = true) : Ran i s (s.reply r)
  /-- BUILD faulted, alone or inside a SENDACKED. -/
  | raised (bs : List Byte) (hi : i = .build bs ∨ i.sentPayload s.cfg.ops = some bs) (h : 16 < bs.length) :
      Ran i s (s.raise (.contractViolation bs.length))
  /-- The framer moved packets. -/
  | framed (chunk acc : List Byte) (ps : List Packet)
      (hi : i = .rxchunk chunk ∨ (i = .emit ∧ chunk = [])) (hb : (ps.map Packet.bytes).flatten ++ acc = s.acc ++ chunk)
      (hf : ∀ d, s.cfg.qdepth = some d → s.rxq.length ≤ d → s.rxq.length + ps.length ≤ d)
      (hs : i = .rxchunk chunk → acc.length < 18) (he : acc.length < s.acc.length + chunk.length + 1) :
      Ran i s { s with acc := acc, rxq := s.rxq ++ ps }
  /-- A free host issued a TRANSMIT. -/
  | sent (s' : State) (p : Packet) (hs : s.txs = .idle) (hp : s.pend = none)
      (h' : (i = .transmit p.bytes ∧ s' = s) ∨
        ∃ payload, i.sentPayload s.cfg.ops = some payload ∧ buildPacket payload = some p ∧
          s' = s.begin (.send payload) .sending) :
      Ran i s { s' with txlog := s.txlog ++ p.bytes, last := some p, txs := .wait, rsp := none }
  /-- A free host wrote raw bytes. -/
  | wrote (s' : State) (bs : List Byte) (hs : s.txs = .idle) (hp : s.pend = none)
      (h' : (i = .writeraw bs ∧ s' = s) ∨
        ((i = .sync ∨ i = .sendsync) ∧ bs = syncMarker ∧ s' = s.begin .mark .marked)) :
      Ran i s { s' with txlog := s.txlog ++ bs, rsp := some .done }
  /-- The controller acted on a packet, taken now or before. -/
  | controlled {t : State} (s' : State) (q : Packet) (hs : s.txs = .wait)
      (h' : (i.takenPacket s.cfg.ops = some q ∧ s' = s) ∨
        (i = .waitstep ∧ ∃ rest, s.rxq = q :: rest ∧ s' = s.withRxq rest))
      (h : controllerAct q s' = .next t) : Ran i s t
  /-- A free host issued a receive, which holds. -/
  | suspended (s' : State) (w : Pend) (hs : s.txs = .idle) (hp : s.pend = none)
      (hi : i.receives = some w)
      (h' : s' = s ∧ w = .take ∨ s' = s.begin (.receive w) .waiting) (hq : s.rxq = []) : Ran i s (s'.suspend w)
  /-- A free host issued a receive, which took a packet. -/
  | took {t : State} (s' : State) (w : Pend) (q : Packet) (rest : List Packet) (hs : s.txs = .idle)
      (hp : s.pend = none) (hi : i.receives = some w)
      (h' : s' = s ∧ w = .take ∨ s' = s.begin (.receive w) .waiting) (hq : s.rxq = q :: rest)
      (h : hostAct w q ((s'.suspend w).withRxq rest) = .next t) : Ran i s t
  /-- The host's outstanding receive was handed a packet. -/
  | received {t : State} (w : Pend) (q : Packet) (hs : s.txs = .idle) (hp : s.pend = some w)
      (hi : i.takenPacket s.cfg.ops = some q) (h : hostAct w q s = .next t) : Ran i s t

/-- A packet row. -/
theorem Ran.of_consume {i : Instr} {s t : State} {q : Packet} (hi : i.takenPacket s.cfg.ops = some q) (h : consume q s = .next t) :
    Ran i s t := by
  rcases consume_next h with ⟨hs, hc⟩ | ⟨hs, w, hp, ha⟩
  · exact .controlled s q hs (.inl ⟨hi, rfl⟩) hc
  · exact .received w q hs hp hi ha

/-- A receive issued by a free host. -/
theorem Ran.of_poll {i : Instr} {s s' t : State} {w : Pend} (hi : i.receives = some w) (hs : s.txs = .idle)
    (hp : s.pend = none) (h' : s' = s ∧ w = .take ∨ s' = s.begin (.receive w) .waiting) (h : poll (s'.suspend w) = .next t) :
    Ran i s t := by
  obtain ⟨hrxq, htxs⟩ : s'.rxq = s.rxq ∧ s'.txs = s.txs := by
    rcases h' with ⟨rfl, -⟩ | rfl
    · exact ⟨rfl, rfl⟩
    · obtain ⟨_, _, _, _, he⟩ := s.begin_aside (.receive w) .waiting
      rw [he]; exact ⟨rfl, rfl⟩
  rcases poll_next h with ⟨hq, rfl⟩ | ⟨q, rest, hq, hc⟩
  · exact .suspended s' w hs hp hi h' (hrxq ▸ hq)
  · rw [consume_idle (s := (s'.suspend w).withRxq rest) (w := w) (htxs.trans hs) rfl] at hc
    exact .took s' w q rest hs hp hi h' (hrxq ▸ hq) hc

/-- A SENDACKED. -/
theorem Ran.of_hostSend {i : Instr} {s t : State} {payload : List Byte} (hi : i.sentPayload s.cfg.ops = some payload)
    (h : hostSend payload s = .next t) :
    Ran i s t := by
  rcases hostSend_next h with ⟨hl, rfl⟩ | ⟨hs, hp, p, hb, rfl⟩
  · exact .raised _ (.inr hi) hl
  · exact .sent _ p hs hp (.inr ⟨payload, hi, hb, rfl⟩)

/-- A marker. -/
theorem Ran.of_hostMark {i : Instr} {s t : State} (hi : i = .sync ∨ i = .sendsync) (h : hostMark s = .next t) :
    Ran i s t := by
  obtain ⟨hs, hp, rfl⟩ := hostMark_next h
  exact .wrote _ _ hs hp (.inr ⟨hi, rfl, rfl⟩)

/-- An AWAIT or EXPECT. -/
theorem Ran.of_hostReceive {i : Instr} {s t : State} {w : Pend} (hi : i.receives = some w) (h : hostReceive w s = .next t) : Ran i s t := by
  obtain ⟨hs, hp, h⟩ := hostReceive_next h
  exact .of_poll hi hs hp (.inr rfl) h

/-- Every instruction that answers a next state had one of these effects. -/
theorem exec_ran {i : Instr} {s t : State} (h : exec i s = .next t) : Ran i s t := by
  cases i with
  | crc8 bs => cases Host.Outcome.next.inj h; exact .replied _ rfl
  | validate bs => cases Host.Outcome.next.inj h; exact .replied _ rfl
  | build bs =>
    rcases Nat.lt_or_ge payloadMax bs.length with hl | hl
    · simp only [exec, execBuild, buildPacket_of_lt hl] at h
      cases Host.Outcome.next.inj h
      exact .raised _ (.inl rfl) hl
    · simp only [exec, execBuild, buildPacket_of_le hl] at h
      cases Host.Outcome.next.inj h
      exact .replied _ rfl
  | take =>
    obtain ⟨hs, hp, h⟩ := issueReceive_next h
    exact .of_poll rfl hs hp (.inl ⟨rfl, rfl⟩) h
  | transmit p =>
    by_cases hl : p.length = 18
    · simp only [exec, execTransmit, toPacket_of_length hl] at h
      obtain ⟨hs, hp, rfl⟩ := transmitPacket_next h
      exact .sent _ ⟨p, hl⟩ hs hp (.inl ⟨rfl, rfl⟩)
    · simp only [exec, execTransmit, toPacket_of_ne hl] at h
      cases h
  | writeraw bs =>
    obtain ⟨hs, hp, rfl⟩ := writeRaw_next h
    exact .wrote _ _ hs hp (.inl ⟨rfl, rfl⟩)
  | rxchunk chunk =>
    obtain ⟨ps, -, hb, hf, rfl⟩ := receiveChunk_next h
    refine .framed chunk _ ps (.inl rfl) (by rw [hb, List.take_append_drop]) hf ?_ ?_
    · intro _; simp only [List.length_drop]; omega
    · simp only [List.length_drop, List.length_append]; omega
  | emit =>
    rcases emitPacket_next h with ⟨-, rfl⟩ | ⟨-, hr, p, hp, rfl⟩
    · exact .held (.inl rfl)
    · refine .framed [] _ [p] (.inr ⟨rfl, rfl⟩) (by simp [hp]) ?_ (by simp) (by simp only [List.length_drop, List.length_nil]; omega)
      intro d hd hl
      simp [State.rxqFull, hd] at hr
      simp; omega
  | waitstep =>
    simp only [exec, execWaitstep] at h
    split at h
    · rename_i hs
      rcases poll_next h with ⟨-, rfl⟩ | ⟨q, rest, hq, hc⟩
      · exact .held (.inr rfl)
      · rw [consume_wait (by simpa using hs)] at hc
        exact .controlled _ q hs (.inr ⟨rfl, rest, hq, rfl⟩) hc
    · cases Host.Outcome.next.inj h; exact .held (.inr rfl)
  | pktAck => exact .of_consume rfl h
  | pktRetx => exact .of_consume rfl h
  | pktOther p =>
    by_cases hl : p.length = 18
    · simp only [exec, execPktOther, toPacket_of_length hl] at h
      exact .of_consume (toPacket_of_length hl) h
    · simp only [exec, execPktOther, toPacket_of_ne hl] at h
      cases h
  | sync => exact .of_hostMark (.inl rfl) h
  | hostSeqObserved => exact .of_consume rfl h
  | hostUpdateReq => exact .of_consume rfl h
  | hostUpdateRes => exact .of_hostSend rfl h
  | hostDeviceIdReq => exact .of_consume rfl h
  | hostDeviceIdRes => exact .of_hostSend rfl h
  | hostFwLengthReq => exact .of_consume rfl h
  | hostFwLengthRes len => exact .of_hostSend rfl h
  | hostReadyForData => exact .of_consume rfl h
  | hostFwChunk chunk => exact .of_hostSend rfl h
  | hostUpdateSuccess => exact .of_consume rfl h
  | sendsync => exact .of_hostMark (.inr rfl) h
  | sendacked payload => exact .of_hostSend rfl h
  | await op => exact .of_hostReceive rfl h
  | expect op => exact .of_hostReceive rfl h

/-- A packet taken by a consumer is acted on alike, whoever decodes it: the block's classes. -/
theorem exec_decodePacket (q : Packet) (s : State) : exec (decodePacket q) s = consume q s := by
  unfold decodePacket
  rcases classify_cases q with ⟨e, hc⟩ | ⟨e, hc⟩ | ⟨-, -, hc⟩ <;> rw [hc]
  · rw [e]; rfl
  · rw [e]; rfl
  · simp [exec, execPktOther]

/-- The same for the host's decoding. -/
theorem exec_decodeHostIn (q : Packet) (s : State) : exec (decodeHostIn s.cfg.ops q) s = consume q s := by
  unfold decodeHostIn
  repeat' split
  all_goals first | exact exec_decodePacket q s | (rename_i hq; rw [hq]; rfl)

end Sys2Proof.Machine
end

