-- ==== Sys2Proof/Laws/PerInstr.lean ====
section
/-! SUPPORT. Statements made per instruction: the shape of each instruction's encoding (R50, R55, R57). -/

namespace Sys2Proof.Laws.EncodedShape

open Sys2Proof.Machine

/-- What the reader of an encoding finds by counting: a CMD transaction starts with one of the six codes, a packet
has 18 bytes, an outbound unit 4 or 18, and what nobody reads has no encoding. -/
def Shape (bs : List Byte) : Option Reader → Prop
  | some .cmdPort => ∃ code operand, bs = code :: operand ∧ 1 ≤ code.toNat ∧ code.toNat ≤ 6
  | some .controller => bs.length = pktLen
  | some .hostIn => bs.length = pktLen
  | some (.wireOut _) => bs.length = 4 ∨ bs.length = pktLen
  | none => False

/-- A well-formed instruction's encoding has the shape its reader expects, whatever the opcodes are. -/
def Statement (i : Instr) : Prop :=
  i.wellFormed = true → ∀ (o : Opcodes) (bs : List Byte), encode o i = some bs → Shape bs (reader i)

/-- A packet's bytes are 18. -/
theorem packetBytes_length {s bs : List Byte} (h : packetBytes s = some bs) : bs.length = pktLen := by
  obtain ⟨p, -, rfl⟩ := Option.map_eq_some_iff.1 h
  exact p.size

/-- A CMD encoding. -/
theorem cmd {i : Instr} {code : Byte} {operand : List Byte} (hr : reader i = some .cmdPort)
    (he : ∀ o, encode o i = some (code :: operand)) (h1 : 1 ≤ code.toNat) (h6 : code.toNat ≤ 6) : Statement i := by
  intro _ o bs h
  rw [he] at h
  rw [hr, ← Option.some.inj h]
  exact ⟨code, operand, rfl, h1, h6⟩

/-- No encoding. -/
theorem unencoded {i : Instr} (he : ∀ o, encode o i = none) : Statement i := by
  intro _ o bs h
  rw [he] at h
  cases h

theorem crc8 (s : List Byte) : Statement (.crc8 s) := cmd rfl (fun _ => rfl) (by decide) (by decide)
theorem build (s : List Byte) : Statement (.build s) := cmd rfl (fun _ => rfl) (by decide) (by decide)
theorem validate (s : List Byte) : Statement (.validate s) := cmd rfl (fun _ => rfl) (by decide) (by decide)
theorem take : Statement .take := cmd rfl (fun _ => rfl) (by decide) (by decide)
theorem transmit (p : List Byte) : Statement (.transmit p) := cmd rfl (fun _ => rfl) (by decide) (by decide)
theorem writeraw (s : List Byte) : Statement (.writeraw s) := cmd rfl (fun _ => rfl) (by decide) (by decide)
theorem rxchunk (chunk : List Byte) : Statement (.rxchunk chunk) := unencoded fun _ => rfl
theorem emit : Statement .emit := unencoded fun _ => rfl
theorem waitstep : Statement .waitstep := unencoded fun _ => rfl
theorem pktAck : Statement .pktAck := fun _ _ _ h => packetBytes_length h
theorem pktRetx : Statement .pktRetx := fun _ _ _ h => packetBytes_length h

theorem pktOther (p : List Byte) : Statement (.pktOther p) := by
  intro hw _ bs h
  simp only [Instr.wellFormed, Instr.operandIsPacket, Bool.and_eq_true, beq_iff_eq] at hw
  rw [← Option.some.inj h]
  exact hw.1.1

theorem sync : Statement .sync := fun _ _ _ h => .inl (by rw [← Option.some.inj h]; rfl)
theorem hostSeqObserved : Statement .hostSeqObserved := fun _ _ _ h => packetBytes_length h
theorem hostUpdateReq : Statement .hostUpdateReq := fun _ _ _ h => packetBytes_length h
theorem hostUpdateRes : Statement .hostUpdateRes := fun _ _ _ h => .inr (packetBytes_length h)
theorem hostDeviceIdReq : Statement .hostDeviceIdReq := fun _ _ _ h => packetBytes_length h
theorem hostDeviceIdRes : Statement .hostDeviceIdRes := fun _ _ _ h => .inr (packetBytes_length h)
theorem hostFwLengthReq : Statement .hostFwLengthReq := fun _ _ _ h => packetBytes_length h
theorem hostFwLengthRes (len : BitVec 32) : Statement (.hostFwLengthRes len) :=
  fun _ _ _ h => .inr (packetBytes_length h)
theorem hostReadyForData : Statement .hostReadyForData := fun _ _ _ h => packetBytes_length h
theorem hostFwChunk (chunk : List Byte) : Statement (.hostFwChunk chunk) :=
  fun _ _ _ h => .inr (packetBytes_length h)
theorem hostUpdateSuccess : Statement .hostUpdateSuccess := fun _ _ _ h => packetBytes_length h
theorem sendsync : Statement .sendsync := unencoded fun _ => rfl
theorem sendacked (s : List Byte) : Statement (.sendacked s) := unencoded fun _ => rfl
theorem await (op : Byte) : Statement (.await op) := unencoded fun _ => rfl
theorem expect (op : Byte) : Statement (.expect op) := unencoded fun _ => rfl

end Sys2Proof.Laws.EncodedShape
end

