-- ==== Sys2Proof/Tests/Slice0.lean ====
section
/-! SUPPORT. The model's own tests: expected bytes are those of `spec/95_test_vectors.md` (its section in each
comment) or written out from the spec's encodings. Then, for every statement with hypotheses, a concrete state and
operands that meet them. The opcode values are the example binding of section 2.10, no fact of the model. -/

namespace Sys2Proof.Tests

set_option Elab.async false

open Sys2Proof.Machine

/-! ## Helpers -/

/-- The example opcodes of section 2.10. -/
def ops : Opcodes := ⟨0xE0#8, 0xE1#8, 0xE2#8, 0xE3#8, 0xE4#8, 0xE5#8, 0xE6#8, 0xE7#8, 0xE8#8⟩

/-- Reset, with the example opcodes. -/
def base : State := { State.reset with cfg := ⟨none, ops⟩ }

/-- Fifteen pad bytes. -/
def pad15 : List Byte := List.replicate 15 0xFF#8

/-- The bytes of `ACK_PKT` (section 2.4). -/
def ackBytes : List Byte := [0x01#8, 0x19#8] ++ pad15 ++ [0x3F#8]

/-- The bytes of `RETX_PKT` (section 2.4). -/
def retxBytes : List Byte := [0x01#8, 0x15#8] ++ pad15 ++ [0x27#8]

/-- `BUILD(52)` (section 2.4). -/
def o52 : Packet := ⟨[0x01#8, 0x52#8] ++ pad15 ++ [0xA9#8], by decide⟩

/-- `BUILD(DE AD BE EF)` (section 2.4). -/
def beef : Packet :=
  ⟨[0x04#8, 0xDE#8, 0xAD#8, 0xBE#8, 0xEF#8] ++ List.replicate 12 0xFF#8 ++ [0x7A#8], by decide⟩

/-- A free host, these packets queued. -/
def queued (q : List Packet) : State := { base with rxq := q }

/-- A TRANSMIT of `beef` outstanding, these packets queued. -/
def waiting (q : List Packet) : State := { base with rxq := q, txs := .wait, last := some beef }

/-- The host in a receive. -/
def receiving (w : Pend) (h : HostState) (q : List Packet) : State :=
  { base with rxq := q, pend := some w, hst := h, phase := .waiting, fw := [0x01#8, 0x02#8] }

/-- A session in this state, about to issue its action. -/
def session (h : HostState) (ph : Phase) (fw : List Byte) : State :=
  { base with hst := h, phase := ph, fw := fw }

/-- The outcome is a next state that passes the check. -/
def Next (o : Outcome) (p : State → Bool) : Bool :=
  match o with
  | .next t => p t
  | .fault _ => false
  | .refused _ => false

/-- The outcome is this refusal. -/
def Refused (o : Outcome) (r : Refusal) : Bool :=
  match o with
  | .next _ => false
  | .fault _ => false
  | .refused r' => decide (r' = r)

/-- The outcome is this fault. -/
def Faulted (o : Outcome) (f : Fault) : Bool :=
  match o with
  | .next _ => false
  | .fault f' => decide (f' = f)
  | .refused _ => false

/-- The decoder answers this instruction. -/
def Reads (d : Except DecodeError Instr) (i : Instr) : Bool :=
  match d with
  | .ok j => decide (j = i)
  | .error _ => false

/-- The decoder refuses, by this name. -/
def Rejects (d : Except DecodeError Instr) (e : DecodeError) : Bool :=
  match d with
  | .ok _ => false
  | .error e' => decide (e' = e)

/-! ## Ill-formed terms -/

theorem test_wf_transmit_17 : (Instr.transmit (List.replicate 17 0#8)).wellFormed = false := by decide
theorem test_wf_other_19 : (Instr.pktOther (List.replicate 19 0#8)).wellFormed = false := by decide
theorem test_wf_other_is_not_ack : (Instr.pktOther ackBytes).wellFormed = false := by decide +kernel
theorem test_wf_other_is_not_retx : (Instr.pktOther retxBytes).wellFormed = false := by decide +kernel
theorem test_wf_chunk_empty : (Instr.hostFwChunk []).wellFormed = false := by decide
theorem test_wf_chunk_17 : (Instr.hostFwChunk (List.replicate 17 0#8)).wellFormed = false := by decide
theorem test_wf_accepts : (Instr.transmit ackBytes).wellFormed = true ∧ (Instr.pktOther o52.bytes).wellFormed = true ∧
    (Instr.hostFwChunk [0x20#8]).wellFormed = true := by decide +kernel

/-! ## Decoding, words from the spec's encodings -/

/-- R57: one transaction of each code. -/
theorem test_decode_cmd :
    Reads (decodeCmd [0x01#8]) (.crc8 []) ∧ Reads (decodeCmd [0x02#8, 0x19#8, 0xFF#8]) (.build [0x19#8, 0xFF#8]) ∧
    Reads (decodeCmd (0x03#8 :: ackBytes)) (.validate ackBytes) ∧ Reads (decodeCmd [0x04#8]) .take ∧
    Reads (decodeCmd (0x05#8 :: ackBytes)) (.transmit ackBytes) ∧
    Reads (decodeCmd [0x06#8, 0xAA#8, 0xBB#8]) (.writeraw [0xAA#8, 0xBB#8]) := by decide

/-- R57, R105, section 2.9: what the port refuses. -/
theorem test_decode_cmd_refuses :
    Rejects (decodeCmd [0x00#8]) (.unassignedCode 0x00#8) ∧ Rejects (decodeCmd [0x07#8]) (.unassignedCode 0x07#8) ∧
    Rejects (decodeCmd []) .noCode ∧ Rejects (decodeCmd [0x04#8, 0x00#8]) (.operandNotAllowed 1) ∧
    Rejects (decodeCmd (0x05#8 :: List.replicate 17 0#8)) (.notAPacket 17) := by decide

/-- Section 2.6: the three classes, a damaged ACK and a two-byte payload among the others. -/
theorem test_decode_packets :
    Reads (decode ops .controller ackBytes) .pktAck ∧ Reads (decode ops .controller retxBytes) .pktRetx ∧
    Reads (decode ops .controller ([0x01#8, 0x19#8] ++ pad15 ++ [0x3E#8]))
      (.pktOther ([0x01#8, 0x19#8] ++ pad15 ++ [0x3E#8])) ∧
    Reads (decode ops .controller ([0x02#8, 0x19#8] ++ pad15 ++ [0x2D#8]))
      (.pktOther ([0x02#8, 0x19#8] ++ pad15 ++ [0x2D#8])) := by decide +kernel

/-- Section 2.10: the six inbound packets as the host reads them. -/
theorem test_decode_host_in :
    Reads (decode ops .hostIn ([0x01#8, 0xE0#8] ++ pad15 ++ [0xCA#8])) .hostSeqObserved ∧
    Reads (decode ops .hostIn ([0x01#8, 0xE1#8] ++ pad15 ++ [0xC8#8])) .hostUpdateReq ∧
    Reads (decode ops .hostIn ([0x01#8, 0xE3#8] ++ pad15 ++ [0xCC#8])) .hostDeviceIdReq ∧
    Reads (decode ops .hostIn ([0x01#8, 0xE5#8] ++ pad15 ++ [0xC0#8])) .hostFwLengthReq ∧
    Reads (decode ops .hostIn (opPacket 0xE7#8).bytes) .hostReadyForData ∧
    Reads (decode ops .hostIn (opPacket 0xE8#8).bytes) .hostUpdateSuccess := by decide +kernel

/-- Section 2.10 and P5: the marker and the four outbound packets, each in its state. -/
theorem test_decode_host_out :
    Reads (decode ops (.wireOut .sync) [0xAA#8, 0xBB#8, 0xCC#8, 0xDD#8]) .sync ∧
    Reads (decode ops (.wireOut .waitForUpdateRes) ([0x01#8, 0xE2#8] ++ pad15 ++ [0xCE#8])) .hostUpdateRes ∧
    Reads (decode ops (.wireOut .deviceIdRes) ([0x02#8, 0xE4#8, 0x52#8] ++ List.replicate 14 0xFF#8 ++ [0xCF#8]))
      .hostDeviceIdRes ∧
    Reads (decode ops (.wireOut .fwLengthRes)
      ([0x05#8, 0xE6#8, 0x00#8, 0x00#8, 0x00#8, 0x21#8] ++ List.replicate 11 0xFF#8 ++ [0x07#8]))
      (.hostFwLengthRes 33#32) ∧
    Reads (decode ops (.wireOut .receiveFirmware) ([0x01#8, 0x20#8] ++ pad15 ++ [0x4D#8])) (.hostFwChunk [0x20#8]) ∧
    Rejects (decode ops (.wireOut .sync) ([0x01#8, 0xE2#8] ++ pad15 ++ [0xCE#8])) .notAWireUnit := by decide +kernel

/-- The table's numbering, and the fetch of what it numbers as the first instruction after reset. -/
theorem test_table_words :
    decodeTableWord 8 0x05 = some (.transmit (List.replicate 18 0#8)) ∧ decodeTableWord 8 0x07 = none ∧
    decodeTableWord 32 0xAABBCCDD = some .sync ∧
    decodeTableWord 144 0x0119FFFFFFFFFFFFFFFFFFFFFFFFFFFFFF3F = some .pktAck ∧
    decodeTableWord 144 0 = some (.pktOther (List.replicate 18 0#8)) := by decide +kernel

theorem test_fetch_words :
    Next (step (State.reset.withFetchWord 8 0x01)) (fun t => t.rsp = some (.byte 0x00#8)) ∧
    Next (step (State.reset.withFetchWord 32 0xAABBCCDD)) (fun t => t.txlog = [0xAA#8, 0xBB#8, 0xCC#8, 0xDD#8]) ∧
    Next (step (State.reset.withFetchWord 144 0x0119FFFFFFFFFFFFFFFFFFFFFFFFFFFFFF3F))
      (fun t => t.txs = .idle && t.rsp = some .done && t.rxq = []) := by decide +kernel

/-! ## One step per instruction -/

/-- Section 2.1. -/
theorem test_crc8 : crc8 [] = 0x00#8 ∧ crc8 [0x80#8] = 0x89#8 ∧ crc8 [0xFF#8] = 0xF3#8 ∧
    crc8 [0x01#8, 0x02#8, 0x03#8] = 0x48#8 ∧ crc8 [0xAA#8, 0xBB#8, 0xCC#8, 0xDD#8] = 0x69#8 := by decide +kernel

/-- Section 2.1: the check value, as a completion. -/
theorem test_crc8_completes :
    Next (exec (.crc8 [0x31#8, 0x32#8, 0x33#8, 0x34#8, 0x35#8, 0x36#8, 0x37#8, 0x38#8, 0x39#8]) (waiting []))
      (fun t => t.rsp = some (.byte 0xF4#8)) := by decide +kernel

/-- Section 2.4: an empty payload, a pad byte as payload. -/
theorem test_build :
    Next (exec (.build []) base) (fun t => t.rsp =
      some (.packet ⟨0x00#8 :: List.replicate 16 0xFF#8 ++ [0xFA#8], by decide⟩)) ∧
    Next (exec (.build [0xFF#8]) base) (fun t => t.rsp =
      some (.packet ⟨[0x01#8, 0xFF#8] ++ pad15 ++ [0xF4#8], by decide⟩)) := by decide +kernel

/-- P1: seventeen bytes. -/
theorem test_build_faults :
    Next (exec (.build (List.replicate 17 0#8)) base) (fun t => t.rsp = some (.fault (.contractViolation 17)) &&
      t.txlog = [] && t.last = none) := by decide

/-- Section 2.5: valid though not well formed, and an undetected double-bit error. -/
theorem test_validate :
    Next (exec (.validate (0x20#8 :: List.replicate 16 0x00#8 ++ [0xC7#8])) base) (fun t => t.rsp = some (.bool true)) ∧
    Next (exec (.validate ([0x01#8, 0x19#8, 0x7F#8] ++ List.replicate 14 0xFF#8 ++ [0x3E#8])) base)
      (fun t => t.rsp = some (.bool true)) := by decide +kernel

/-- Section 2.5: a wrong bit, and nineteen bytes of residue zero. -/
theorem test_validate_false :
    Next (exec (.validate ([0x01#8, 0x19#8] ++ pad15 ++ [0x3E#8])) base) (fun t => t.rsp = some (.bool false)) ∧
    Next (exec (.validate (ackBytes ++ [0x00#8])) base) (fun t => t.rsp = some (.bool false)) := by decide +kernel

/-- Section 2.7, misalignment: 37 bytes, one stray first. -/
theorem test_rxchunk : Next (exec (.rxchunk (0x00#8 :: ackBytes ++ ackBytes)) base) (fun t => t.acc = [0x3F#8] &&
    t.rxq.map Packet.bytes = [[0x00#8, 0x01#8, 0x19#8] ++ pad15, [0x3F#8, 0x01#8, 0x19#8] ++ pad15]) := by decide

/-- Section 2.7: seventeen bytes queue nothing. -/
theorem test_rxchunk_short : Next (exec (.rxchunk (List.replicate 17 0#8)) base)
    (fun t => t.acc.length = 17 && t.rxq = []) := by decide

/-- R91: nineteen bytes. -/
theorem test_emit : Next (exec .emit { base with acc := ackBytes ++ [0x12#8] })
    (fun t => t.acc = [0x12#8] && t.rxq.map Packet.bytes = [ackBytes]) := by decide

/-- R94: the oldest, a control packet. -/
theorem test_take : Next (exec .take (queued [ackPkt, retxPkt]))
    (fun t => t.rsp = some (.packet ackPkt) && t.rxq = [retxPkt]) := by decide +kernel

/-- R105: from reset. -/
theorem test_transmit : Next (exec (.transmit ackBytes) base) (fun t => t.txlog = ackBytes && t.last = some ackPkt &&
    t.txs = .wait && t.rsp = none) := by decide +kernel

/-- Section 2.9: refused. -/
theorem test_transmit_refused : Refused (exec (.transmit (List.replicate 19 0#8)) base) (.notAPacket 19) ∧
    Refused (exec (.transmit ackBytes) (waiting [])) .busy := by decide

/-- R106: the Retransmit-Request. -/
theorem test_waitstep_retx : Next (exec .waitstep (waiting [retxPkt, ackPkt]))
    (fun t => t.txlog = beef.bytes && t.rxq = [ackPkt] && t.txs = .wait) := by decide +kernel

/-- R106: the ACK. -/
theorem test_waitstep_ack : Next (exec .waitstep (waiting [ackPkt, retxPkt]))
    (fun t => t.txlog = [] && t.rxq = [retxPkt] && t.txs = .idle && t.last = some beef) := by decide +kernel

/-- R111, section 2.8. -/
theorem test_writeraw : Next (exec (.writeraw [0xAA#8, 0xBB#8, 0xCC#8, 0xDD#8]) base)
    (fun t => t.txlog = [0xAA#8, 0xBB#8, 0xCC#8, 0xDD#8] && t.last = none && t.txs = .idle) := by decide

/-- R58, R116: the same packet to the controller and to the host. -/
theorem test_pkt_other : Next (exec (.pktOther o52.bytes) (waiting [])) (fun t => decide (t = waiting [])) ∧
    Next (exec (.pktOther o52.bytes) { base with pend := some .take })
      (fun t => t.rsp = some (.packet o52) && t.pend = none) := by decide +kernel

/-- D8: the slot that holds nothing. -/
theorem test_last_empty : Faulted (exec .pktRetx { base with txs := .wait }) .lastEmpty := by decide +kernel

/-- Nobody takes. -/
theorem test_no_consumer : Refused (exec .pktAck base) .noConsumer := by decide +kernel

/-- R139: a control packet where Ready-For-Data is due. -/
theorem test_fatal_path : Next (exec .pktAck (receiving (.expect 0xE7#8) .receiveFirmware []))
    (fun t => t.hst = .failed && t.rsp = some .mismatch && t.reports = [.moved .failed]) := by decide +kernel

/-- R126: the same where Update-Success is awaited. -/
theorem test_await_drops : Next (exec .pktAck (receiving (.await 0xE8#8) .updateSuccess []))
    (fun t => t.hst = .updateSuccess && t.pend = some (.await 0xE8#8)) := by decide +kernel

/-- R135, section 2.10: the length packet of 33 bytes, from the session. -/
theorem test_fw_length : Next (step (session .fwLengthRes .ready (List.replicate 33 0#8))) (fun t => t.txlog =
    [0x05#8, 0xE6#8, 0x00#8, 0x00#8, 0x00#8, 0x21#8] ++ List.replicate 11 0xFF#8 ++ [0x07#8] &&
    t.phase = .sending) := by decide +kernel

/-- R137: the last chunk's acknowledgement is acted on. -/
theorem test_last_chunk : Next (step { session .receiveFirmware .sending (List.replicate 33 0#8) with off := 32 })
    (fun t => t.off = 33 && t.hst = .updateSuccess && t.phase = .ready) := by decide +kernel

/-- R96: an EMIT onto a full queue. -/
theorem test_queue_overflow : Faulted (exec .emit
    { base with acc := ackBytes, rxq := [o52], cfg := ⟨some 1, ops⟩ }) .queueOverflow := by decide

/-- R170: reset in the middle. -/
theorem test_reset_event : Next (step { waiting [o52] with acc := [0x01#8], txlog := [0x02#8], schedule := [.rst] })
    (fun t => decide (t = base)) := by decide +kernel

/-! ## Concrete states that meet the statements' hypotheses -/

theorem ops_wf : ops.wf = true := by decide

theorem witness_DecodeInvertsEncode : ops.wf = true ∧ (Instr.hostFwLengthRes 33#32).wellFormed = true ∧
    reader (.hostFwLengthRes 33#32) = some (.wireOut .fwLengthRes) ∧ encode ops (.hostFwLengthRes 33#32) =
      some ([0x05#8, 0xE6#8, 0x00#8, 0x00#8, 0x00#8, 0x21#8] ++ List.replicate 11 0xFF#8 ++ [0x07#8]) := by
  decide +kernel

theorem witness_CommandWordsHaveOneMeaning : (0x00#8).toNat = 0 ∧ 6 < (0x07#8).toNat := by decide

theorem witness_AckPacketBytes : buildPacket [0x19#8] = some ackPkt := by decide +kernel
theorem witness_RetxPacketBytes : buildPacket [0x15#8] = some retxPkt := by decide +kernel

theorem witness_OpcodePacketsAreDistinct : ops.wf = true := ops_wf

theorem witness_CrcMessageLaws : [0x01#8, 0x02#8].length = [0x03#8, 0x04#8].length := by decide

theorem witness_SingleByteErrorsDetected : ackBytes.length = 18 ∧ crc8 ackBytes = 0x00#8 ∧ 17 < 18 ∧
    ackBytes[17]? ≠ some 0x3E#8 := by decide +kernel

theorem witness_DoubleBitErrorsEscapeAt127 : ackBytes.length = 18 ∧ crc8 ackBytes = 0x00#8 ∧ 16 < 143 ∧ 143 < 144 ∧
    143 - 16 = 127 ∧ 0 < 127 ∧ 127 < 144 := by decide +kernel

theorem witness_BuildCompletesWellFormed : (List.replicate 16 0xFF#8).length ≤ 16 := by decide
theorem witness_BuildOfLongPayloadFaults : 16 < (List.replicate 17 0xFF#8).length := by decide
theorem witness_WellFormedIsBuilt : buildPacket [0x52#8] = some o52 := by decide +kernel

theorem witness_RxchunkFramesByPosition : base.room ((base.acc ++ ackBytes).length / 18) := fun _ hd => by cases hd

theorem witness_RxchunkFramesByPosition_finite :
    State.room { base with cfg := ⟨some 1, ops⟩ } ((base.acc ++ ackBytes).length / 18) := fun d hd => by
  cases hd; decide

theorem witness_ChunkingIsInvisible : base.acc.length < 18 ∧ base.cfg.qdepth = none ∧
    [[0x01#8], [0x02#8, 0x03#8]].flatten = [[0x01#8, 0x02#8], [], [0x03#8]].flatten := by decide

theorem witness_QueueOverflowIsAFault :
    let s : State := { base with acc := ackBytes, rxq := [o52], cfg := ⟨some 1, ops⟩ }
    s.cfg.qdepth = some 1 ∧ s.rxq.length ≤ 1 ∧ 1 < s.rxq.length + (s.acc ++ []).length / 18 := by decide

theorem witness_EmitMovesEighteenBytes : 18 ≤ ({ base with acc := ackBytes } : State).acc.length ∧
    ({ base with acc := ackBytes } : State).room 1 ∧ base.acc.length < 18 :=
  ⟨by decide, fun _ hd => (by cases hd), by decide⟩

theorem witness_TakeReturnsOldest : (queued [ackPkt, retxPkt]).txs = .idle ∧ (queued [ackPkt, retxPkt]).pend = none ∧
    (queued [ackPkt, retxPkt]).rxq = ackPkt :: [retxPkt] ∧ (waiting []).txs = .wait := by decide +kernel

theorem witness_TakeHoldsUntilEmit : base.txs = .idle ∧ base.pend = none ∧ base.rxq = [] ∧ base.acc.length < 18 ∧
    base.schedule = [] ∧ base.acc.length + ackBytes.length = 18 ∧ base.room 1 :=
  ⟨rfl, rfl, rfl, by decide, rfl, by decide, fun _ hd => by cases hd⟩

theorem witness_IssueRefusedWhileWaiting : (waiting []).txs = .wait ∧ ackBytes.length = 18 ∧
    (List.replicate 16 0#8).length ≤ 16 ∧ (waiting []).cfg.qdepth = none := by decide

theorem witness_TransmitIssues : ackBytes.length = 18 ∧ base.txs = .idle ∧ base.pend = none ∧
    (waiting []).txs = .wait ∧ (List.replicate 17 0#8).length ≠ 18 := by decide

theorem witness_WaitstepActsOnClass : (waiting [retxPkt]).txs = .wait ∧ (waiting [retxPkt]).rxq = retxPkt :: [] ∧
    (waiting [retxPkt]).last = some beef ∧ (waiting [ackPkt]).rxq = ackPkt :: [] ∧
    (waiting [o52]).rxq = o52 :: [] ∧ o52 ≠ ackPkt ∧ o52 ≠ retxPkt := by decide +kernel

theorem witness_WaitstepRunsDecodedPacket : (waiting [o52]).txs = .wait ∧ (waiting [o52]).rxq = o52 :: [] := by decide

theorem witness_TransmitTraceLaw :
    let qs := [retxPkt, o52, retxPkt]
    base.txs = .idle ∧ base.pend = none ∧ ackPkt ∉ qs ∧ (queued (qs ++ [])).rxq = qs ++ [] ∧
      (queued (qs ++ ackPkt :: [retxPkt])).rxq = qs ++ ackPkt :: [retxPkt] := by decide +kernel

/-- Chunks arriving during the wait: half of an ACK before a hold, the rest after it. -/
theorem witness_TransmitTraceLaw_arriving :
    let is : List Instr := [.rxchunk (ackBytes.take 9), .waitstep, .rxchunk (ackBytes.drop 9), .waitstep]
    base.txs = .idle ∧ base.pend = none ∧ base.cfg.qdepth = none ∧ (∀ i ∈ is, i.inWait = true) ∧
      Next (runInstrs (.transmit beef.bytes :: is) base) (fun t => t.txs = .idle && t.rsp = some .done) := by
  decide +kernel

theorem witness_ControllerHoldsOnEmptyQueue : (waiting []).txs = .wait ∧ (waiting []).rxq = [] ∧
    (waiting []).schedule = [] ∧ (waiting []).acc.length < 18 := by decide

theorem witness_WriterawAppends : base.txs = .idle ∧ base.pend = none ∧ (waiting []).txs = .wait := by decide

theorem witness_PacketRowsAct : o52 ≠ ackPkt ∧ o52 ≠ retxPkt ∧ (waiting []).txs = .wait ∧
    (waiting []).last = some beef ∧ ({ base with pend := some .take } : State).txs = .idle ∧
    ({ base with pend := some .take } : State).pend = some .take := by decide +kernel

theorem witness_LastChangesOnlyAtIssue :
    Next (exec (.transmit ackBytes) base) (fun t => decide (t.last ≠ base.last)) := by decide +kernel

theorem witness_OutboundRecordOnlyGrows : Next (exec .sync base) (fun _ => true) ∧
    Next (exec (.writeraw [0x01#8]) base) (fun _ => true) ∧ Next (exec (.transmit ackBytes) base) (fun _ => true) ∧
    Next (exec .take (queued [o52])) (fun _ => true) := by decide +kernel

theorem witness_TxsMovesOnlyAtIssueAndAck :
    base.txs = .idle ∧ Next (exec (.transmit ackBytes) base) (fun t => t.txs = .wait) ∧
    (waiting [ackPkt]).txs = .wait ∧ Next (exec .waitstep (waiting [ackPkt])) (fun t => t.txs = .idle) ∧
    (waiting []).txs = .wait ∧ Next (exec .pktAck (waiting [])) (fun t => t.txs = .idle) := by
  decide +kernel

theorem witness_InboundBytesConserved : Next (exec (.rxchunk ackBytes) base) (fun _ => true) ∧
    Next (exec .take (queued [o52])) (fun t => (queued [o52]).rxq = o52 :: t.rxq) := by decide +kernel

theorem witness_MarkerGoesOutUnframed : base.txs = .idle ∧ base.pend = none ∧ base.phase ≠ .sending ∧
    (session .sync .ready [0x01#8]).settle.phase = .ready ∧ (session .sync .ready [0x01#8]).settle.hst = .sync ∧
    (session .deviceIdRes .sending [0x01#8]).txs = .idle ∧ (session .deviceIdRes .sending [0x01#8]).pend = none := by
  decide

/-- One state per clause. -/
theorem witness_AwaitedPacketAdvancesHost :
    (∀ w h, (receiving w h []).txs = .idle ∧ (receiving w h []).phase = .waiting ∧ (receiving w h []).hst = h ∧
      (receiving w h []).pend = some w) ∧
    (receiving (.await 0xE0#8) .sync []).cfg.ops.seqObserved = 0xE0#8 ∧
    (receiving (.await 0xE1#8) .sendUpdateReq []).cfg.ops.updateReq = 0xE1#8 ∧
    (receiving (.await 0xE3#8) .deviceIdReq []).cfg.ops.deviceIdReq = 0xE3#8 ∧
    (receiving (.await 0xE5#8) .fwLengthReq []).cfg.ops.fwLengthReq = 0xE5#8 ∧
    (receiving (.await 0xE7#8) .eraseApplication []).cfg.ops.readyForData = 0xE7#8 ∧
    (receiving (.await 0xE8#8) .updateSuccess []).cfg.ops.updateSuccess = 0xE8#8 :=
  ⟨fun _ _ => ⟨rfl, rfl, rfl, rfl⟩, by decide⟩

theorem witness_ExpectedPacketOrFailure :
    let s := receiving (.expect 0xE7#8) .receiveFirmware []
    s.txs = .idle ∧ s.phase = .waiting ∧ s.hst = .receiveFirmware ∧ s.pend = some (.expect s.cfg.ops.readyForData) ∧
      ackPkt ≠ opPacket s.cfg.ops.readyForData := by decide +kernel

theorem witness_UnmatchedPacketIsDropped :
    let s := receiving (.await 0xE1#8) .sendUpdateReq [ackPkt]
    s.txs = .idle ∧ s.pend = some (.await 0xE1#8) ∧ s.rxq = ackPkt :: [] ∧ s.schedule = [] ∧ s.acc.length < 18 ∧
      ackPkt ≠ opPacket 0xE1#8 := by decide +kernel

theorem witness_SessionPacketsAreTransmitted :
    (∀ h fw, (session h .ready fw).txs = .idle ∧ (session h .ready fw).pend = none ∧
      (session h .ready fw).phase = .ready ∧ (session h .ready fw).hst = h) ∧
    (session .fwLengthRes .ready [0x01#8]).fw.length < 2 ^ 32 := ⟨fun _ _ => ⟨rfl, rfl, rfl, rfl⟩, by decide⟩

theorem witness_SendackedBuildsThenTransmits : [0x52#8].length ≤ 16 ∧ base.txs = .idle ∧ base.pend = none ∧
    base.phase = .unstarted ∧ 16 < (List.replicate 17 0#8).length := by decide

theorem witness_AwaitAndExpectTakeTheHead : base.txs = .idle ∧ base.pend = none ∧ base.phase = .unstarted ∧
    (queued [opPacket 0xE7#8]).rxq = opPacket 0xE7#8 :: [] ∧ (queued [o52]).rxq = o52 :: [] ∧
    o52 ≠ opPacket 0xE7#8 ∧ base.rxq = [] := by decide +kernel

theorem witness_SessionReceivesAreIssued :
    let s := session .receiveFirmware .acked [0x01#8]
    s.txs = .idle ∧ s.pend = none ∧ s.phase ≠ .sending ∧
      s.sessionNext = some (.receive (.expect 0xE7#8)) ∧ s.rxq = [] ∧
      ({ s with rxq := [o52] } : State).rxq = o52 :: [] := by decide

theorem witness_HostAdvancesAfterAck :
    (∀ h fw, (session h .sending fw).txs = .idle ∧ (session h .sending fw).pend = none ∧
      (session h .sending fw).phase = .sending ∧ (session h .sending fw).schedule = [] ∧
      (session h .sending fw).acc.length < 18 ∧ (session h .sending fw).hst = h) ∧
    (session .receiveFirmware .sending (List.replicate 17 0#8)).off + 16 < 17 ∧
    (session .receiveFirmware .sending (List.replicate 16 0#8)).off ≤ 16 ∧
    16 ≤ (session .receiveFirmware .sending (List.replicate 16 0#8)).off + 16 :=
  ⟨fun _ _ => ⟨rfl, rfl, rfl, rfl, by simp [session, base, State.reset], rfl⟩, by decide⟩

/-- A state of a session that meets the invariant. -/
theorem session_inv (h : HostState) (hh : h ≠ .updateSuccess ∧ h ≠ .done) (fw : List Byte) (h1 : 1 ≤ fw.length)
    (h2 : fw.length < 2 ^ 32) : (session h .ready fw).Inv where
  accShort := by simp [session, base, State.reset]
  lastHeld := by simp [session, base, State.reset]
  queueFits := by simp [session, base]
  oneConsumer := by simp [session, base, State.reset]
  offset := by simp [session, base, State.reset]
  image := fun _ => ⟨h1, h2⟩
  begins := by simp [session, base, State.reset]
  remains := fun _ => h1
  whole := fun hd => absurd hd (by simpa [session, not_or] using hh)
  waits := by simp [session]
  sends := by simp [session]

theorem witness_SessionPayloadsFit : (session .receiveFirmware .ready [0x20#8]).Inv ∧
    (session .receiveFirmware .ready [0x20#8]).sessionNext = some (.send [0x20#8]) :=
  ⟨session_inv _ (by decide) _ (by decide) (by decide), by decide⟩

/-- A receive of the last state, and of the state that can fail, that meet the invariant. -/
theorem receiving_inv (w : Pend) (h : HostState) (off : Nat)
    (hw : (w = .await 0xE8#8 ∧ h = .updateSuccess ∧ off = 2) ∨
      (w = .expect 0xE7#8 ∧ h = .receiveFirmware ∧ off = 1)) :
    ({ receiving w h [] with off := off } : State).Inv where
  accShort := by simp [receiving, base, State.reset]
  lastHeld := by simp [receiving, base, State.reset]
  queueFits := by simp [receiving, base]
  oneConsumer := by simp [receiving, base, State.reset]
  offset := by rcases hw with ⟨-, -, rfl⟩ | ⟨-, -, rfl⟩ <;> simp [receiving]
  image := by simp [receiving]
  begins := by rcases hw with ⟨-, rfl, -⟩ | ⟨-, rfl, -⟩ <;> simp [receiving]
  remains := by rcases hw with ⟨-, rfl, rfl⟩ | ⟨-, rfl, rfl⟩ <;> simp [receiving]
  whole := by rcases hw with ⟨-, rfl, rfl⟩ | ⟨-, rfl, rfl⟩ <;> simp [receiving]
  waits := by rcases hw with ⟨rfl, rfl, -⟩ | ⟨rfl, rfl, -⟩ <;> simp [receiving, State.awaited, base, ops]
  sends := by simp [receiving]

theorem witness_OutcomesHaveOneOrigin :
    ({ receiving (.await 0xE8#8) .updateSuccess [] with off := 2 } : State).Inv ∧
    Next (exec .hostUpdateSuccess { receiving (.await 0xE8#8) .updateSuccess [] with off := 2 })
      (fun t => t.hst = .done) ∧
    ({ receiving (.expect 0xE7#8) .receiveFirmware [] with off := 1 } : State).Inv ∧
    Next (exec .pktAck { receiving (.expect 0xE7#8) .receiveFirmware [] with off := 1 })
      (fun t => t.hst = .failed) :=
  ⟨receiving_inv _ _ _ (.inl ⟨rfl, rfl, rfl⟩), by decide +kernel, receiving_inv _ _ _ (.inr ⟨rfl, rfl, rfl⟩),
    by decide +kernel⟩

/-- A session about to issue the receive of these states meets the invariant. -/
theorem issuing_inv (h : HostState) (ph : Phase) (off : Nat) (q : List Packet)
    (hw : (h = .updateSuccess ∧ ph = .ready ∧ off = 1) ∨ (h = .receiveFirmware ∧ ph = .acked ∧ off = 0) ∨
      (h = .receiveFirmware ∧ ph = .sending ∧ off = 0)) :
    ({ session h ph [0x20#8] with off := off, rxq := q } : State).Inv where
  accShort := by simp [session, base, State.reset]
  lastHeld := by simp [session, base, State.reset]
  queueFits := by simp [session, base]
  oneConsumer := by simp [session, base, State.reset]
  offset := by rcases hw with ⟨-, -, rfl⟩ | ⟨-, -, rfl⟩ | ⟨-, -, rfl⟩ <;> simp [session]
  image := by simp [session]
  begins := by rcases hw with ⟨rfl, -, -⟩ | ⟨rfl, -, -⟩ | ⟨rfl, -, -⟩ <;> simp [session]
  remains := by rcases hw with ⟨rfl, -, rfl⟩ | ⟨rfl, -, rfl⟩ | ⟨rfl, -, rfl⟩ <;> simp [session]
  whole := by rcases hw with ⟨rfl, -, rfl⟩ | ⟨rfl, -, rfl⟩ | ⟨rfl, -, rfl⟩ <;> simp [session]
  waits := by rcases hw with ⟨-, rfl, -⟩ | ⟨-, rfl, -⟩ | ⟨-, rfl, -⟩ <;> simp [session]
  sends := by rcases hw with ⟨rfl, rfl, -⟩ | ⟨rfl, rfl, -⟩ | ⟨rfl, rfl, -⟩ <;> simp [session, sendingStates]

/-- The instruction that issues the receive ends the session at once, also where it first acts on the last ACK. -/
theorem witness_OutcomesHaveOneOrigin_issued :
    let s (h : HostState) (ph : Phase) (off : Nat) (q : Packet) : State :=
      { session h ph [0x20#8] with off := off, rxq := [q] }
    (s .receiveFirmware .acked 0 ackPkt).Inv ∧
    Next (exec (.expect 0xE7#8) (s .receiveFirmware .acked 0 ackPkt)) (fun t => t.hst = .failed) ∧
    (s .updateSuccess .ready 1 (opPacket 0xE8#8)).Inv ∧
    Next (exec (.await 0xE8#8) (s .updateSuccess .ready 1 (opPacket 0xE8#8))) (fun t => t.hst = .done) ∧
    (s .receiveFirmware .sending 0 (opPacket 0xE8#8)).Inv ∧
    Next (exec (.await 0xE8#8) (s .receiveFirmware .sending 0 (opPacket 0xE8#8))) (fun t => t.hst = .done) :=
  ⟨issuing_inv _ _ _ _ (.inr (.inl ⟨rfl, rfl, rfl⟩)), by decide +kernel, issuing_inv _ _ _ _ (.inl ⟨rfl, rfl, rfl⟩),
    by decide +kernel, issuing_inv _ _ _ _ (.inr (.inr ⟨rfl, rfl, rfl⟩)), by decide +kernel⟩

theorem witness_SessionStart :
    let s (fw : List Byte) : State := { base with schedule := [.start fw] }
    (s [0x01#8]).schedule = .start [0x01#8] :: [] ∧ (s [0x01#8]).phase = .unstarted ∧ (s [0x01#8]).txs = .idle ∧
      (s [0x01#8]).pend = none ∧ 1 ≤ [0x01#8].length ∧ [0x01#8].length < 2 ^ 32 ∧
      (s []).schedule = .start [] :: [] ∧ ([] : List Byte).length = 0 ∧
      (waiting []).phase = .unstarted ∧ (waiting []).txs = .wait ∧
      (session .sync .ready [0x01#8]).phase ≠ .unstarted := by decide

/-- R145 with one request in the second reply, for a one-byte image. -/
theorem witness_SuccessfulSession :
    let r : Nat → Nat := fun k => if k = 1 then 1 else 0
    let s : State := { base with schedule := [.start [0x20#8]], rxq := sessionReplies ops r [0x20#8] }
    1 ≤ [0x20#8].length ∧ [0x20#8].length < 2 ^ 32 ∧ s.schedule = [.start [0x20#8]] ∧ s.phase = .unstarted ∧
      s.txs = .idle ∧ s.pend = none ∧ s.acc.length < 18 ∧ s.rxq = sessionReplies s.cfg.ops r [0x20#8] := by
  decide +kernel

theorem witness_StepRunsCommand :
    let s (bs : List Byte) : State := { base with schedule := [.cmd bs] }
    (s [0x04#8]).schedule = .cmd [0x04#8] :: [] ∧ Reads (decodeCmd [0x04#8]) .take ∧
      (s [0x00#8]).schedule = .cmd [0x00#8] :: [] ∧ Rejects (decodeCmd [0x00#8]) (.unassignedCode 0x00#8) := by decide

theorem witness_StepRunsNamedEvent :
    (∀ e : Event, ({ base with schedule := [e] } : State).schedule = e :: []) ∧ base.phase ≠ .sending ∧
      Reads (decodeWire ops .sync [0xAA#8, 0xBB#8, 0xCC#8, 0xDD#8]) .sync := ⟨fun _ => rfl, by decide⟩

theorem witness_StepRunsEnabledAgent : base.schedule = [] ∧ base.acc.length < 18 ∧ (waiting []).txs = .wait ∧
    (receiving .take .sync []).txs = .idle ∧ (receiving .take .sync []).pend = some .take ∧
    (receiving .take .sync []).rxq = [] ∧ (receiving .take .sync [o52]).rxq = o52 :: [] ∧
    (session .sync .ready [0x01#8]).phase ≠ .sending ∧
    (session .sync .ready [0x01#8]).sessionNext = some .mark := by decide

theorem witness_ResetEventClearsAll :
    ({ waiting [o52] with schedule := [.rst] } : State).schedule = .rst :: [] := by decide

theorem witness_StepKeepsInvariant : (session .sync .ready [0x20#8]).Inv ∧
    Next (step (session .sync .ready [0x20#8])) (fun t => t.phase = .marked) :=
  ⟨session_inv _ (by decide) _ (by decide) (by decide), by decide⟩

theorem witness_ParametersNeverChange : Next (step { base with schedule := [.start [0x01#8]] })
    (fun t => t.fw = [0x01#8]) ∧ Next (step base) (fun t => t.fw = []) := by decide

theorem witness_FaultsAreKept : Next (step { base with schedule := [.cmd (0x02#8 :: List.replicate 17 0#8)] })
    (fun t => t.faults = [.contractViolation 17]) ∧ Next (step { base with schedule := [.rst] }) (fun _ => true) := by
  decide

theorem witness_FramerAndConsumersCommute : base.cfg.qdepth = none ∧ (waiting [ackPkt]).rxq ≠ [] ∧
    Next (exec .waitstep (waiting [ackPkt])) (fun _ => true) ∧
    Next (exec (.rxchunk ackBytes) (waiting [ackPkt])) (fun _ => true) ∧
    Next (exec .take (queued [ackPkt])) (fun _ => true) ∧
    Next (exec (.rxchunk ackBytes) (queued [ackPkt])) (fun _ => true) := by decide +kernel

theorem witness_FramerTouchesOnlyItsOwn : Next (exec (.rxchunk ackBytes) base) (fun _ => true) ∧
    Next (exec .emit { base with acc := ackBytes }) (fun _ => true) := by decide

theorem witness_OthersLeaveFramerAlone : (∀ chunk, Instr.pktRetx ≠ .rxchunk chunk) ∧ Instr.pktRetx ≠ .emit ∧
    (waiting []).txs = .wait ∧ Next (exec .pktRetx (waiting [])) (fun _ => true) :=
  ⟨by simp, by simp, by decide, by decide +kernel⟩

/-- A step that removes the head: the controller's, the host's outstanding receive's, a TAKE's. -/
theorem witness_OthersLeaveFramerAlone_steps :
    let took (q : Packet) (t : State) : Bool := decide ([q] = q :: t.rxq)
    (∀ es, (waiting [o52]).schedule ≠ .rst :: es) ∧ Next (step (waiting [o52])) (took o52) ∧
    (receiving (.await 0xE0#8) .sync [o52]).txs = .idle ∧
    Next (step (receiving (.await 0xE0#8) .sync [o52])) (took o52) ∧
    Next (step { queued [o52] with schedule := [.cmd [0x04#8]] }) (took o52) :=
  ⟨by simp [waiting, base, State.reset], by decide +kernel, by decide, by decide +kernel, by decide +kernel⟩

theorem witness_BuiltPacketRoundTrips : buildPacket [0x52#8] = some o52 ∧ base.acc = [] ∧ base.rxq = [] ∧
    base.txs = .idle ∧ base.pend = none ∧ base.room 1 :=
  ⟨by decide +kernel, rfl, rfl, rfl, rfl, fun _ hd => by cases hd⟩

end Sys2Proof.Tests
end

