-- ==== Sys2Proof/Proofs/Scope.lean ====
section
/-! SUPPORT. The proofs of the scope's statements (`spec/00_scope.md`): fixed words, the opcodes' packets, the
sync marker. -/

namespace Sys2Proof

/-- Rule R9 as propositions. -/
theorem Opcodes.wf_iff (o : Opcodes) :
    o.wf = true ↔ o.toList.Nodup ∧ ackByte ∉ o.toList ∧ retxByte ∉ o.toList := by
  simp only [Opcodes.wf, Bool.and_eq_true, decide_eq_true_iff, List.all_eq_true, bne_iff_ne]
  refine and_congr_right fun _ => ⟨fun h => ⟨fun ha => (h _ ha).1 rfl, fun hr => (h _ hr).2 rfl⟩, ?_⟩
  rintro ⟨ha, hr⟩ b hb
  exact ⟨fun e => ha (e ▸ hb), fun e => hr (e ▸ hb)⟩

@[simp] theorem decodePacket_ackPkt : decodePacket Machine.ackPkt = .pktAck := by
  simp [decodePacket]

@[simp] theorem decodePacket_retxPkt : decodePacket Machine.retxPkt = .pktRetx := by
  simp [decodePacket]

/-- A 144-bit word of the table that spells a packet decodes as the block decodes that packet (R50, R52). -/
theorem decodeTableWord_packet {w : Nat} {p : Packet} (hw : w < 2 ^ 144) (hb : bytesOfTable 18 w = p.bytes) :
    decodeTableWord 144 w = some (decodePacket p) := by
  rw [decodeTableWord, if_neg (by decide), if_neg (by decide), if_pos rfl, if_pos hw, hb, Machine.toPacket_bytes,
    Option.map_some]

end Sys2Proof

namespace Sys2Proof.Machine

theorem opPacket_injective : Function.Injective opPacket := fun _ _ h => opPacket_inj.1 h

/-- The bytes of `ACK_PKT` (R53). -/
theorem ackPkt_bytes : ackPkt.bytes = 0x01#8 :: 0x19#8 :: List.replicate 15 0xFF#8 ++ [0x3F#8] := by
  decide +kernel

/-- The bytes of `RETX_PKT` (R54). -/
theorem retxPkt_bytes : retxPkt.bytes = 0x01#8 :: 0x15#8 :: List.replicate 15 0xFF#8 ++ [0x27#8] := by
  decide +kernel

/-- The session writes the marker in one place only, at the start of Sync (R129). -/
theorem State.sessionNext_eq_mark (s : State) :
    s.sessionNext = some .mark ↔ s.phase = .ready ∧ s.hst = .sync := by
  constructor
  · intro h
    unfold State.sessionNext at h
    split at h
    case h_1 hph hhst => exact ⟨hph, hhst⟩
    all_goals cases h
  · rintro ⟨hph, hhst⟩
    simp [State.sessionNext, hph, hhst]

/-- Beginning a marker moves the phase, where the session stands at the start of Sync, and nothing else of the
settled state. -/
theorem State.begin_mark (s : State) :
    s.begin .mark .marked = s.settle.withPhase
      (if s.settle.phase = .ready ∧ s.settle.hst = .sync then .marked else s.settle.phase) := by
  simp only [State.begin, State.sessionNext_eq_mark]
  split
  · rfl
  · rfl

/-- The marker of a free host: the session's place moves and the four bytes go out (R111, R129). -/
theorem hostMark_idle {s : State} (h : s.txs = .idle) (hp : s.pend = none) :
    hostMark s =
      .next { s.begin .mark .marked with txlog := s.txlog ++ syncMarker, rsp := some .done } := by
  obtain ⟨_, _, _, _, hb⟩ := s.begin_aside .mark .marked
  rw [hostMark_free h hp, hb]
  exact writeRaw_free h hp

end Sys2Proof.Machine

open Sys2Proof Sys2Proof.Machine

/-- Settles O7: BUILD is injective on one-byte payloads, the control packets being two of them, so rule R9 on the
opcodes carries over to their packets. -/
theorem opcodePacketsAreDistinct : Obligations.OpcodePacketsAreDistinct := by
  intro o ho
  obtain ⟨hnodup, hack, hretx⟩ := o.wf_iff.1 ho
  exact ⟨hnodup.map opPacket_injective, mt (List.mem_map_of_injective opPacket_injective).1 hack,
    mt (List.mem_map_of_injective opPacket_injective).1 hretx⟩

/-- Settles O35: both rows are the one operation of `hostMark_idle`, and what it begins is `State.begin_mark`. -/
theorem markerGoesOutUnframed : Obligations.MarkerGoesOutUnframed := by
  intro s hidle hpend
  refine ⟨rfl, ?_, State.settle_of_ne⟩
  calc exec .sendsync s
      = hostMark s := rfl
    _ = .next { s.begin .mark .marked with txlog := s.txlog ++ syncMarker, rsp := some .done } :=
        hostMark_idle hidle hpend
    _ = _ := by rw [State.begin_mark]; rfl

/-- Settles O3: the command words by their code, the marker by its four bytes, the control packets by the bytes of
rules R53 and R54. -/
theorem specWordsDecode : Obligations.SpecWordsDecode := by
  refine ⟨rfl, rfl, rfl, rfl, ?marker, ?ack, ?retx⟩
  case marker =>
    have hbytes : bytesOfTable 4 0xAABBCCDD = syncMarker := by decide
    simp [decodeTableWord, hbytes]
  case ack =>
    rw [decodeTableWord_packet (p := ackPkt) (by decide) (by rw [ackPkt_bytes]; decide), decodePacket_ackPkt]
  case retx =>
    rw [decodeTableWord_packet (p := retxPkt) (by decide) (by rw [retxPkt_bytes]; decide), decodePacket_retxPkt]

end

