-- ==== Sys2Proof/Proofs/State.lean ====
section
/-! SUPPORT. The proofs of the state's statements (`spec/10_state.md`): the invariant, what an instruction can do to
each element of the block, the reset state, and what a step of the machine can be. -/

namespace Sys2Proof

/-- The opcodes of the machine are lawful, whichever they are (R9). -/
theorem Config.opcodes_wf : Config.opcodes.wf = true := by
  unfold Config.opcodes
  split
  case isTrue hwf => exact hwf
  case isFalse => decide

end Sys2Proof

namespace Sys2Proof.Machine

/-! ### What an instruction can do to the block

`exec_ran` tells the effects apart by what the host does as well. The statements about ACC, RXQ, LAST, TXS and TXLOG
ask only for the block's share of them, which is said here once. -/

/-- `t` differs from `s` at most in what is the host's: RSP, its receive, its place, its reports, its faults. -/
structure State.HostAside (s t : State) : Prop where
  acc : t.acc = s.acc
  rxq : t.rxq = s.rxq
  last : t.last = s.last
  txs : t.txs = s.txs
  txlog : t.txlog = s.txlog
  fw : t.fw = s.fw
  cfg : t.cfg = s.cfg
  schedule : t.schedule = s.schedule

theorem State.HostAside.refl (s : State) : s.HostAside s := by constructor <;> rfl

/-- Moving the session's place, with a receive and a completion changed before it, is the host's alone. -/
theorem State.SamePlaceAside.hostAside {s t : State} {w : Option Pend} {r : Option Reply}
    (h : State.SamePlaceAside { s with pend := w, rsp := r } t) : s.HostAside t := by
  obtain ⟨hst, off, phase, reports, rfl⟩ := h
  constructor <;> rfl

/-- What the host does with a packet leaves the block alone (R94, R126, R128). -/
theorem hostAct_hostAside {w : Pend} {q : Packet} {s t : State} (h : hostAct w q s = .next t) :
    s.HostAside t := by
  rcases hostAct_next h with rfl | ⟨-, rfl⟩ | ⟨_, -, -, rfl⟩ | ⟨_, -, -, rfl⟩ | ⟨_, -, -, rfl⟩
  · exact .refl _
  · exact State.SamePlaceAside.hostAside (.refl _)
  · exact ((s.release .done).received_aside true).hostAside
  · exact ((s.release .ok).received_aside true).hostAside
  · exact ((s.release .mismatch).received_aside false).hostAside

/-- The effects of an instruction `i` on the block, from `s`. -/
inductive BlockEffect (i : Instr) (s : State) : State → Prop
  /-- The block was left alone. -/
  | untouched : BlockEffect i s s
  /-- The framer moved packets (R90, R91); which bytes, say `receiveChunk_next` and `emitPacket_next`. -/
  | framed (chunk acc : List Byte) (ps : List Packet) (hi : i = .rxchunk chunk ∨ i = .emit) :
      BlockEffect i s { s with acc := acc, rxq := s.rxq ++ ps }
  /-- A TRANSMIT was issued (R105). -/
  | issued (p : Packet) (hs : s.txs = .idle)
      (hi : i = .transmit p.bytes ∨
        ∃ payload, i.sentPayload s.cfg.ops = some payload ∧ buildPacket payload = some p) :
      BlockEffect i s { s with txlog := s.txlog ++ p.bytes, last := some p, txs := .wait }
  /-- Raw bytes went out (R111). -/
  | wrote (bs : List Byte) (hi : i = .writeraw bs ∨ (i = .sync ∨ i = .sendsync) ∧ bs = syncMarker) :
      BlockEffect i s { s with txlog := s.txlog ++ bs }
  /-- The controller acted on `ACK_PKT` (R107), which WAITSTEP took from the queue. -/
  | acked (q : Packet) (rxq : List Packet) (hs : s.txs = .wait)
      (hq : rxq = s.rxq ∨ i = .waitstep ∧ s.rxq = q :: rxq) :
      BlockEffect i s { s with rxq := rxq, txs := .idle }
  /-- The controller sent the packet in LAST again (R109). -/
  | resent (q p : Packet) (rxq : List Packet) (hs : s.txs = .wait)
      (hq : rxq = s.rxq ∨ i = .waitstep ∧ s.rxq = q :: rxq) (hl : s.last = some p) :
      BlockEffect i s { s with rxq := rxq, txlog := s.txlog ++ p.bytes }
  /-- The controller dropped a packet (R116). -/
  | dropped (q : Packet) (rxq : List Packet) (hs : s.txs = .wait)
      (hq : rxq = s.rxq ∨ i = .waitstep ∧ s.rxq = q :: rxq) : BlockEffect i s (s.withRxq rxq)
  /-- A receive of the host took the head of the queue at its issue (R94, R126, R128). -/
  | took (q : Packet) (rest : List Packet) (hs : s.txs = .idle) (hp : s.pend = none)
      (hi : i.receives ≠ none) (hq : s.rxq = q :: rest) : BlockEffect i s (s.withRxq rest)

/-- What a free host's operation begins moves only the session's place. -/
theorem aside_of_begun {s s' : State} {c : Prop} {op : SessionOp} {ph : Phase}
    (h : s' = s ∧ c ∨ s' = s.begin op ph) : s.SamePlaceAside s' := by
  rcases h with ⟨rfl, -⟩ | rfl
  · exact .refl _
  · exact s.begin_aside _ _

/-- The controller's act on a packet, taken from the queue or decoded before. -/
theorem BlockEffect.of_controllerAct {i : Instr} {s t : State} {q : Packet} {rxq : List Packet}
    (hs : s.txs = .wait) (hq : rxq = s.rxq ∨ i = .waitstep ∧ s.rxq = q :: rxq)
    (h : controllerAct q (s.withRxq rxq) = .next t) : ∃ u, BlockEffect i s u ∧ u.HostAside t := by
  rcases controllerAct_next h with ⟨-, rfl⟩ | ⟨-, p, hl, rfl⟩ | ⟨-, -, rfl⟩
  · exact ⟨_, .acked q rxq hs hq, State.SamePlaceAside.hostAside (.refl _)⟩
  · exact ⟨_, .resent q p rxq hs hq hl, .refl _⟩
  · exact ⟨_, .dropped q rxq hs hq, .refl _⟩

/-- Every instruction that answers a next state had one of these effects on the block, and the rest of what it did
is the host's. -/
theorem exec_blockEffect {i : Instr} {s t : State} (h : exec i s = .next t) :
    ∃ u, BlockEffect i s u ∧ u.HostAside t := by
  cases exec_ran h with
  | held => exact ⟨s, .untouched, .refl s⟩
  | replied r => exact ⟨s, .untouched, State.SamePlaceAside.hostAside (.refl _)⟩
  | raised bs => exact ⟨s, .untouched, by constructor <;> rfl⟩
  | framed chunk acc ps hi => exact ⟨_, .framed chunk acc ps (hi.imp_right And.left), .refl _⟩
  | sent s' p hs hp h' =>
    rcases h' with ⟨hi, rfl⟩ | ⟨payload, hi, hb, rfl⟩
    · exact ⟨_, .issued p hs (.inl hi), by constructor <;> rfl⟩
    · obtain ⟨_, _, _, _, hs'⟩ := s.begin_aside (.send payload) .sending
      rw [hs']
      exact ⟨_, .issued p hs (.inr ⟨payload, hi, hb⟩), by constructor <;> rfl⟩
  | wrote s' bs hs hp h' =>
    rcases h' with ⟨hi, rfl⟩ | ⟨hi, hbs, rfl⟩
    · exact ⟨_, .wrote bs (.inl hi), by constructor <;> rfl⟩
    · obtain ⟨_, _, _, _, hs'⟩ := s.begin_aside .mark .marked
      rw [hs']
      exact ⟨_, .wrote bs (.inr ⟨hi, hbs⟩), by constructor <;> rfl⟩
  | controlled s' q hs h' hc =>
    rcases h' with ⟨-, rfl⟩ | ⟨hi, rest, hq, rfl⟩
    · exact BlockEffect.of_controllerAct hs (.inl rfl) hc
    · exact BlockEffect.of_controllerAct hs (.inr ⟨hi, hq⟩) hc
  | suspended s' w hs hp hi h' hq =>
    obtain ⟨_, _, _, _, rfl⟩ := aside_of_begun h'
    exact ⟨s, .untouched, by constructor <;> rfl⟩
  | took s' w q rest hs hp hi h' hq ha =>
    obtain ⟨_, _, _, _, rfl⟩ := aside_of_begun h'
    exact ⟨_, .took q rest hs hp (by simp [hi]) hq, { hostAct_hostAside ha with }⟩
  | received w q hs hp hi ha => exact ⟨s, .untouched, hostAct_hostAside ha⟩

/-! ### What every instruction leaves alone -/

/-- No instruction changes the image, the parameters or the schedule (R17, R21). -/
theorem exec_parameters {i : Instr} {s t : State} (h : exec i s = .next t) :
    t.fw = s.fw ∧ t.cfg = s.cfg ∧ t.schedule = s.schedule := by
  obtain ⟨u, hu, hside⟩ := exec_blockEffect h
  cases hu <;> exact ⟨hside.fw, hside.cfg, hside.schedule⟩

/-- No instruction but the framer's touches ACC or the tail of RXQ, and none but the active consumer's removes the
head (R10, R40). -/
theorem exec_queue {i : Instr} {s t : State} (hrx : ∀ chunk, i ≠ .rxchunk chunk) (hemit : i ≠ .emit)
    (h : exec i s = .next t) :
    t.acc = s.acc ∧
    (t.rxq = s.rxq ∨ ∃ q, s.rxq = q :: t.rxq ∧
      ((s.txs = .wait ∧ i = .waitstep) ∨ (s.txs = .idle ∧ s.pend = none ∧ i.receives ≠ none))) := by
  obtain ⟨u, hu, hside⟩ := exec_blockEffect h
  cases hu with
  | framed chunk acc ps hi => exact absurd hi (by simp [hrx, hemit])
  | acked q rxq hs hq | resent q _ rxq hs hq | dropped q rxq hs hq =>
    refine ⟨hside.acc, ?_⟩
    rw [hside.rxq]
    exact hq.imp_right fun ⟨hi, hq⟩ => ⟨q, hq, .inl ⟨hs, hi⟩⟩
  | took q rest hs hp hi hq => exact ⟨hside.acc, .inr ⟨q, by rw [hside.rxq]; exact hq, .inr ⟨hs, hp, hi⟩⟩⟩
  | _ => exact ⟨hside.acc, .inl hside.rxq⟩

/-- The controller does not move the host (R161). -/
theorem controllerAct_place {q : Packet} {s t : State} (h : controllerAct q s = .next t) :
    t.hst = s.hst ∧ t.off = s.off ∧ t.phase = s.phase := by
  rcases controllerAct_next h with ⟨-, rfl⟩ | ⟨-, p, -, rfl⟩ | ⟨-, -, rfl⟩ <;> exact ⟨rfl, rfl, rfl⟩

/-- While a TRANSMIT is outstanding no instruction moves the host (R108, R112). -/
theorem exec_place_of_wait {i : Instr} {s t : State} (h : exec i s = .next t) (hw : s.txs = .wait) :
    t.hst = s.hst ∧ t.off = s.off ∧ t.phase = s.phase := by
  cases exec_ran h with
  | held | replied | raised | framed => exact ⟨rfl, rfl, rfl⟩
  | controlled s' q hs h' hc =>
    rcases h' with ⟨-, rfl⟩ | ⟨-, rest, -, rfl⟩
    · exact controllerAct_place hc
    · exact controllerAct_place (s := s.withRxq rest) hc
  | sent _ _ hs | wrote _ _ hs | suspended _ _ hs | took _ _ _ _ hs | received _ _ hs =>
    exact absurd (hw.symm.trans hs) (by decide)

/-- The controller ends a TRANSMIT on `ACK_PKT` alone, and changes TXS and RSP only (R107). -/
theorem controllerAct_completes {q : Packet} {s t : State} (hs : s.txs = .wait) (ht : t.txs = .idle)
    (h : controllerAct q s = .next t) : q = ackPkt ∧ t = { s with txs := .idle, rsp := some .done } := by
  rcases controllerAct_next h with ⟨hq, ht⟩ | ⟨-, p, -, rfl⟩ | ⟨-, -, rfl⟩
  · exact ⟨hq, ht⟩
  · exact absurd (ht.symm.trans hs) (by decide)
  · exact absurd (ht.symm.trans hs) (by decide)

/-- The pure operations change RSP, and the recorded faults, only (R112). -/
theorem exec_pure {i : Instr} {s t : State} (hi : i.isPure = true) (h : exec i s = .next t) :
    ∃ r fs, t = { s with rsp := r, faults := fs } := by
  cases i with
  | crc8 bs => exact ⟨_, _, (Host.Outcome.next.inj h).symm⟩
  | validate bs => exact ⟨_, _, (Host.Outcome.next.inj h).symm⟩
  | build bs =>
    simp only [exec, execBuild] at h
    split at h
    · exact ⟨_, _, (Host.Outcome.next.inj h).symm⟩
    · exact ⟨_, _, (Host.Outcome.next.inj h).symm⟩
  | _ => cases hi

/-! ### What a step of the machine can be -/

/-- The host's turn: a hold, the host acting on its completed TRANSMIT, an operation of its session, or the head of
RXQ for its receive (R95, R108, R125). -/
theorem hostTurn_cases (s : State) :
    hostTurn s = .stay s ∨ hostTurn s = .stay s.settle ∨ (∃ i, hostTurn s = .run i s) ∨
    (s.txs = .idle ∧ ∃ w q rest, s.pend = some w ∧ s.rxq = q :: rest ∧
      hostTurn s = .run (decodeHostIn s.cfg.ops q) (s.withRxq rest)) := by
  unfold hostTurn
  split
  case h_1 => exact .inl rfl
  case h_2 hidle =>
    split
    case h_1 w hpend =>
      split
      case h_1 => exact .inl rfl
      case h_2 q rest hrxq => exact .inr (.inr (.inr ⟨hidle, w, q, rest, hpend, hrxq, rfl⟩))
    case h_2 =>
      split
      case isTrue => exact .inr (.inl rfl)
      case isFalse =>
        split
        case h_1 op hnext => exact .inr (.inr (.inl ⟨_, rfl⟩))
        case h_2 => exact .inl rfl

/-- The start of a session: of a free host, for the first time since reset, with an image in the domain (R142). -/
theorem startSession_next {fw : List Byte} {s t : State} (h : startSession fw s = .next t) :
    (1 ≤ fw.length ∧ fw.length < 2 ^ 32) ∧ t = { s with fw := fw, hst := .sync, off := 0, phase := .ready } := by
  unfold startSession at h
  split at h
  · cases h
  · split at h
    · cases h
    · split at h
      case isTrue hfw => exact ⟨hfw, (Host.Outcome.next.inj h).symm⟩
      case isFalse => cases h

theorem startSession_ne_fault (fw : List Byte) (s : State) (f : Fault) : startSession fw s ≠ .fault f := by
  unfold startSession
  repeat' split
  all_goals simp

/-- The steps of the machine from `s`. -/
inductive Stepped (s : State) : State → Prop
  /-- An instruction ran on the state, less the scheduled entry. -/
  | ran {t : State} (i : Instr) (es : List Event) (hf : fetch s = .run i (s.withSchedule es))
      (h : exec i (s.withSchedule es) = .next t) : Stepped s t
  /-- The host's outstanding receive was handed the head of RXQ. -/
  | handed {t : State} (w : Pend) (q : Packet) (rest : List Packet) (es : List Event) (hs : s.txs = .idle)
      (hp : s.pend = some w) (hq : s.rxq = q :: rest)
      (hf : fetch s = .run (decodeHostIn s.cfg.ops q) ((s.withSchedule es).withRxq rest))
      (h : exec (decodeHostIn s.cfg.ops q) ((s.withSchedule es).withRxq rest) = .next t) : Stepped s t
  /-- Nothing was enabled. -/
  | held (es : List Event) : Stepped s (s.withSchedule es)
  /-- The host acted on its completed TRANSMIT. -/
  | settled (es : List Event) : Stepped s (s.withSchedule es).settle
  /-- Reset. -/
  | reset (es : List Event) (he : s.schedule = .rst :: es) : Stepped s (resetEvent (s.withSchedule es))
  /-- A session started. -/
  | started (fw : List Byte) (es : List Event) (he : s.schedule = .start fw :: es)
      (hfw : 1 ≤ fw.length ∧ fw.length < 2 ^ 32) :
      Stepped s { s.withSchedule es with fw := fw, hst := .sync, off := 0, phase := .ready }

/-- A step that runs what was fetched. -/
theorem step_of_run {i : Instr} {s s' : State} (h : fetch s = .run i s') : step s = exec i s' := by
  simp only [step, h]

/-- The host's turn as a step. -/
theorem Stepped.of_hostTurn {s t : State} (es : List Event) (hf : fetch s = hostTurn (s.withSchedule es))
    (h : step s = .next t) : Stepped s t := by
  rcases hostTurn_cases (s.withSchedule es) with hturn | hturn | ⟨i, hturn⟩ | ⟨hs, w, q, rest, hp, hq, hturn⟩
  all_goals rw [hturn] at hf
  · simp only [step, hf] at h
    cases h
    exact .held es
  · simp only [step, hf] at h
    cases h
    exact .settled es
  · exact .ran i es hf (step_of_run hf ▸ h)
  · exact .handed w q rest es hs hp hq hf (step_of_run hf ▸ h)

theorem Stepped.of_run {i : Instr} {s t : State} (es : List Event) (hf : fetch s = .run i (s.withSchedule es))
    (h : step s = .next t) : Stepped s t := .ran i es hf (step_of_run hf ▸ h)

/-- A decoded transaction as a step. -/
theorem Stepped.of_decoded {d : Except DecodeError Instr} {s t : State} (es : List Event)
    (hf : fetch s = .ofDecoded (s.withSchedule es) d) (h : step s = .next t) : Stepped s t := by
  cases d with
  | ok i => exact .of_run es hf h
  | error e => simp only [step, hf, Fetched.ofDecoded] at h; cases h

/-- The step of a machine with nothing scheduled. -/
theorem Stepped.of_autonomous {s t : State} (hsch : s.schedule = []) (h : step s = .next t) : Stepped s t := by
  have hs : s.withSchedule [] = s := by rw [← hsch]; rfl
  have hf : fetch s = autonomous s := by simp only [fetch, hsch]
  by_cases hacc : pktLen ≤ s.acc.length
  · refine .of_run (i := .emit) [] ?_ h
    rw [hf, hs, autonomous, if_pos hacc]
  · rw [autonomous, if_neg hacc] at hf
    split at hf
    · split at hf
      · exact .of_run [] (by rw [hf, hs]) h
      · simp only [step, hf] at h
        cases h
        exact hs ▸ Stepped.held []
    · exact .of_hostTurn [] (by rw [hf, hs]) h

/-- Every step that answers a next state is one of these. -/
theorem step_stepped {s t : State} (h : step s = .next t) : Stepped s t := by
  cases hsch : s.schedule with
  | nil => exact .of_autonomous hsch h
  | cons e es =>
    cases e with
    | host => exact .of_hostTurn es (by simp only [fetch, hsch]) h
    | cmd bytes => exact .of_decoded es (by simp only [fetch, hsch]; rfl) h
    | wire bytes => exact .of_decoded es (by simp only [fetch, hsch]; rfl) h
    | rst =>
      simp only [step, fetch, hsch] at h
      cases h
      exact .reset es hsch
    | start fw =>
      simp only [step, fetch, hsch, fetchStart] at h
      cases hstart : startSession fw (s.withSchedule es) with
      | next s' =>
        rw [hstart] at h
        cases h
        obtain ⟨hfw, rfl⟩ := startSession_next hstart
        exact .started fw es hsch hfw
      | fault f => exact absurd hstart (startSession_ne_fault _ _ f)
      | refused r => rw [hstart] at h; cases h
    | rx | sendsync | sendacked | await | expect | framer | ctl =>
      exact .of_run es (by simp only [fetch, hsch]; rfl) h

/-! ### The invariant

Each lemma names the fields of the invariant its operation can touch; the others are those of the state before. -/

section
variable {s : State}

/-- The host moves inside the action of its state: not to the end of a receive, and to a TRANSMIT only where its
state sends (R127). -/
theorem State.Inv.withPhase {ph : Phase} (h : s.Inv) (hrun : s.phase ≠ .unstarted) (hw : ph ≠ .waiting)
    (hs : ph = .sending → s.hst ∈ sendingStates) : (s.withPhase ph).Inv :=
  { h with
    image := fun _ => h.image hrun
    waits := fun e => absurd e hw
    sends := hs }

/-- The host enters a state whose demands on OFF are met (R125 to R140). -/
theorem State.Inv.enter {hst : HostState} (h : s.Inv) (hrun : s.phase ≠ .unstarted)
    (hbegins : hst ∉ [.receiveFirmware, .updateSuccess, .done, .failed] → s.off = 0)
    (hremains : hst = .receiveFirmware → s.off < s.fw.length)
    (hwhole : hst = .updateSuccess ∨ hst = .done → s.off = s.fw.length) : (s.enter hst).Inv :=
  { h with
    image := fun _ => h.image hrun
    begins := hbegins
    remains := hremains
    whole := hwhole
    waits := fun e => Phase.noConfusion e
    sends := fun e => Phase.noConfusion e }

/-- Acting on an acknowledged chunk: OFF moves over it, to the end of the image at most (R137, R138). -/
theorem State.Inv.sent_chunk (h : s.Inv) (hrun : s.phase ≠ .unstarted) (hst : s.hst = .receiveFirmware) :
    s.sent.Inv := by
  have hoff := h.remains hst
  have hlen : (fwChunkAt s.fw s.off).length = min 16 (s.fw.length - s.off) := by simp [fwChunkAt, payloadMax]
  simp only [State.sent, hst]
  split
  case isTrue hlt =>
    exact { h with
      offset := hlt.le
      image := fun _ => h.image hrun
      begins := by simp [hst]
      remains := fun _ => hlt
      whole := by simp [hst]
      waits := fun e => Phase.noConfusion e
      sends := fun e => Phase.noConfusion e }
  case isFalse hge =>
    have hend : s.off + (fwChunkAt s.fw s.off).length = s.fw.length := by omega
    exact { h with
      offset := hend.le
      image := fun _ => h.image hrun
      begins := by simp
      remains := by simp
      whole := fun _ => hend
      waits := fun e => Phase.noConfusion e
      sends := fun e => Phase.noConfusion e }

/-- Acting on an acknowledged TRANSMIT (R131, R133, R135, R137). -/
theorem State.Inv.sent (h : s.Inv) (hph : s.phase = .sending) : s.sent.Inv := by
  have hrun : s.phase ≠ .unstarted := by simp [hph]
  have hstates : s.hst = .receiveFirmware ∨
      s.hst = .waitForUpdateRes ∨ s.hst = .deviceIdRes ∨ s.hst = .fwLengthRes := by
    have := h.sends hph
    simp only [sendingStates, List.mem_cons, List.not_mem_nil, or_false] at this
    tauto
  rcases hstates with hst | hst
  · exact h.sent_chunk hrun hst
  · have hoff : s.off = 0 := h.begins (by rcases hst with hst | hst | hst <;> simp [hst])
    rcases hst with hst | hst | hst <;> simp only [State.sent, hst] <;>
      exact h.enter hrun (fun _ => hoff) (by simp) (by simp)

theorem State.Inv.settle (h : s.Inv) : s.settle.Inv := by
  unfold State.settle
  split
  case isTrue hph => exact h.sent hph.1
  case isFalse => exact h

/-- A session that issues an operation has started. -/
theorem State.phase_of_sessionNext {op : SessionOp} (h : s.sessionNext = some op) : s.phase ≠ .unstarted := by
  intro hph
  simp [State.sessionNext, hph] at h

/-- A session sends in the states of `sendingStates` (R131, R133, R135, R137). -/
theorem State.hst_of_sessionNext_send {payload : List Byte} (h : s.sessionNext = some (.send payload)) :
    s.hst ∈ sendingStates := by
  unfold State.sessionNext at h
  split at h <;> simp_all [sendingStates]

/-- A session receives what its state awaits (R126, R128). -/
theorem State.awaited_of_sessionNext_receive {w : Pend} (h : s.sessionNext = some (.receive w)) :
    s.awaited = some w := by
  unfold State.sessionNext at h
  split at h <;> simp_all [State.awaited]

/-- Beginning a SENDACKED. -/
theorem State.Inv.begin_send (h : s.Inv) (payload : List Byte) : (s.begin (.send payload) .sending).Inv := by
  unfold State.begin
  split
  case isTrue hn =>
    exact h.settle.withPhase (State.phase_of_sessionNext hn) (by decide) fun _ => State.hst_of_sessionNext_send hn
  case isFalse => exact h.settle

/-- Beginning the marker. -/
theorem State.Inv.begin_mark (h : s.Inv) : (s.begin .mark .marked).Inv := by
  unfold State.begin
  split
  case isTrue hn => exact h.settle.withPhase (State.phase_of_sessionNext hn) (by decide) (by simp)
  case isFalse => exact h.settle

/-- A free host is suspended in a receive that is not its session's. -/
theorem State.Inv.suspend (h : s.Inv) (hs : s.txs = .idle) (hp : s.pend = none) (w : Pend) : (s.suspend w).Inv :=
  { h with
    oneConsumer := fun hw => absurd (hs.symm.trans hw) (by decide)
    waits := fun hph => absurd hp (h.waits hph).1 }

/-- A free host is suspended in a receive, which is its session's where the session issues it (R126, R128). -/
theorem State.Inv.begin_receive (h : s.Inv) (hs : s.txs = .idle) (hp : s.pend = none) (w : Pend) :
    ((s.begin (.receive w) .waiting).suspend w).Inv := by
  obtain ⟨hst, off, ph, rs, hset⟩ := s.settle_aside
  have hs' : s.settle.txs = .idle := by rw [hset]; exact hs
  have hp' : s.settle.pend = none := by rw [hset]; exact hp
  unfold State.begin
  split
  case isTrue hn =>
    exact { h.settle with
      oneConsumer := fun hw => absurd (hs'.symm.trans hw) (by decide)
      image := fun _ => h.settle.image (State.phase_of_sessionNext hn)
      waits := fun _ => ⟨by simp, (State.awaited_of_sessionNext_receive hn).symm⟩
      sends := fun e => Phase.noConfusion e }
  case isFalse => exact h.settle.suspend hs' hp' w

/-- A free host issues a receive, by TAKE or as an operation of its own. -/
theorem State.Inv.suspend_begun {s' : State} {w : Pend} {c : Prop} (h : s.Inv) (hs : s.txs = .idle)
    (hp : s.pend = none) (h' : s' = s ∧ c ∨ s' = s.begin (.receive w) .waiting) : (s'.suspend w).Inv := by
  rcases h' with ⟨rfl, -⟩ | rfl
  · exact h.suspend hs hp w
  · exact h.begin_receive hs hp w

/-- The head of the queue is removed. -/
theorem State.Inv.withRxq {q : Packet} {rest : List Packet} (h : s.Inv) (hq : s.rxq = q :: rest) :
    (s.withRxq rest).Inv :=
  { h with queueFits := fun n hn => by have := h.queueFits n hn; simp [hq] at this ⊢; omega }

/-- A receive that is not the session's ends. -/
theorem State.Inv.release (h : s.Inv) (hph : s.phase ≠ .waiting) (r : Reply) : (s.release r).Inv :=
  { h with
    oneConsumer := fun _ => rfl
    waits := fun e => absurd e hph }

theorem afterReceive_begins {hst : HostState}
    (h : afterReceive hst ∉ [.receiveFirmware, .updateSuccess, .done, .failed]) :
    hst ∉ [.receiveFirmware, .updateSuccess, .done, .failed] := by
  revert h
  cases hst <;> decide

theorem afterReceive_receiveFirmware {hst : HostState} (h : afterReceive hst = .receiveFirmware) :
    hst = .eraseApplication ∨ hst = .receiveFirmware := by
  revert h
  cases hst <;> decide

theorem afterReceive_whole {hst : HostState} (h : afterReceive hst = .updateSuccess ∨ afterReceive hst = .done) :
    hst = .updateSuccess ∨ hst = .done := by
  revert h
  cases hst <;> decide

/-- A receive ends, and the host moves on where it was the session's (R126, R128, R139). -/
theorem State.Inv.received (h : s.Inv) (r : Reply) (matched : Bool) : ((s.release r).received matched).Inv := by
  by_cases hph : s.phase = .waiting
  · have hrun : s.phase ≠ .unstarted := by simp [hph]
    have hover : ((s.withPhase .ready).release r).Inv := (h.withPhase hrun (by decide) (by simp)).release (by simp) r
    rw [State.received, if_pos (by simpa using hph)]
    cases matched with
    | false => exact hover.enter (hst := .failed) (by simp) (by simp) (by simp) (by simp)
    | true =>
      refine hover.enter (hst := afterReceive s.hst) (by simp) (fun hb => h.begins (afterReceive_begins hb)) ?_
        fun hw => h.whole (afterReceive_whole hw)
      intro hrf
      rcases afterReceive_receiveFirmware hrf with hst | hst
      · have hoff : s.off = 0 := h.begins (by simp [hst])
        have hfw := (h.image hrun).1
        simp only [State.release_off, State.withPhase_off, State.release_fw, State.withPhase_fw]
        omega
      · exact h.remains hst
  · rw [State.received_of_ne (by simpa using hph)]
    exact h.release hph r

/-- No state's receive is a plain TAKE. -/
theorem State.awaited_ne_take (s : State) : s.awaited ≠ some .take := by
  unfold State.awaited
  cases s.hst <;> simp

/-- What the host does with a packet it has taken keeps the invariant. -/
theorem State.Inv.of_hostAct {t : State} {w : Pend} {q : Packet} (h : s.Inv) (hp : s.pend = some w)
    (ha : hostAct w q s = .next t) : t.Inv := by
  rcases hostAct_next ha with rfl | ⟨rfl, rfl⟩ | ⟨_, -, -, rfl⟩ | ⟨_, -, -, rfl⟩ | ⟨_, -, -, rfl⟩
  · exact h
  · have hph : s.phase ≠ .waiting := fun hph => s.awaited_ne_take ((h.waits hph).2 ▸ hp)
    exact h.release hph _
  all_goals exact h.received _ _

/-- What the controller does with a packet it has taken keeps the invariant. -/
theorem State.Inv.of_controllerAct {t : State} {q : Packet} (h : s.Inv) (hc : controllerAct q s = .next t) :
    t.Inv := by
  rcases controllerAct_next hc with ⟨-, rfl⟩ | ⟨-, p, -, rfl⟩ | ⟨-, -, rfl⟩
  · exact { h with
      lastHeld := fun hw => TxState.noConfusion hw
      oneConsumer := fun hw => TxState.noConfusion hw }
  · exact { h with }
  · exact h

/-- Every instruction keeps the invariant. -/
theorem State.Inv.of_exec {i : Instr} {t : State} (h : s.Inv) (hx : exec i s = .next t) : t.Inv := by
  cases exec_ran hx with
  | held => exact h
  | replied | raised => exact { h with }
  | framed chunk acc ps hi hb hf hs he =>
    have hshort := h.accShort
    refine { h with accShort := ?_, queueFits := ?_ }
    · rcases hi with hi | ⟨-, rfl⟩
      · exact hs hi
      · simp only [List.length_nil] at he
        show acc.length < pktLen
        omega
    · intro d hd
      simpa using hf d hd (h.queueFits d hd)
  | sent s' p hs hp h' =>
    obtain ⟨hs', hp'⟩ : s'.Inv ∧ s'.pend = none := by
      rcases h' with ⟨-, rfl⟩ | ⟨payload, -, -, rfl⟩
      · exact ⟨h, hp⟩
      · obtain ⟨_, _, _, _, hb⟩ := s.begin_aside (.send payload) .sending
        exact ⟨h.begin_send payload, by rw [hb]; exact hp⟩
    exact { hs' with
      lastHeld := fun _ => by simp
      oneConsumer := fun _ => hp' }
  | wrote s' bs hs hp h' =>
    have hs' : s'.Inv := by
      rcases h' with ⟨-, rfl⟩ | ⟨-, -, rfl⟩
      · exact h
      · exact h.begin_mark
    exact { hs' with }
  | controlled s' q hs h' hc =>
    rcases h' with ⟨-, rfl⟩ | ⟨-, rest, hq, rfl⟩
    · exact h.of_controllerAct hc
    · exact (h.withRxq hq).of_controllerAct hc
  | suspended s' w hs hp hi h' => exact h.suspend_begun hs hp h'
  | took s' w q rest hs hp hi h' hq ha =>
    have hq' : (s'.suspend w).rxq = q :: rest := by
      obtain ⟨_, _, _, _, rfl⟩ := aside_of_begun h'
      exact hq
    exact ((h.suspend_begun hs hp h').withRxq hq').of_hostAct rfl ha
  | received w q hs hp hi ha => exact h.of_hostAct hp ha

/-- Whatever was before, reset meets the invariant (R170). -/
theorem resetEvent_inv (s : State) : (resetEvent s).Inv where
  accShort := by simp [resetEvent, State.reset]
  lastHeld := fun hw => TxState.noConfusion hw
  queueFits := fun _ _ => Nat.zero_le _
  oneConsumer := fun _ => rfl
  offset := Nat.zero_le _
  image := fun hrun => absurd rfl hrun
  begins := fun _ => rfl
  remains := fun hst => HostState.noConfusion hst
  whole := by simp [resetEvent, State.reset]
  waits := fun hph => Phase.noConfusion hph
  sends := fun hph => Phase.noConfusion hph

/-- A session starts at the beginning of its image (R125, R142). -/
theorem State.Inv.start {fw : List Byte} (h : s.Inv) (hfw : 1 ≤ fw.length ∧ fw.length < 2 ^ 32) :
    State.Inv { s with fw := fw, hst := .sync, off := 0, phase := .ready } :=
  { h with
    offset := Nat.zero_le _
    image := fun _ => hfw
    begins := fun _ => rfl
    remains := fun hst => HostState.noConfusion hst
    whole := by simp
    waits := fun hph => Phase.noConfusion hph
    sends := fun hph => Phase.noConfusion hph }

/-- The schedule is no part of the invariant. -/
theorem State.Inv.withSchedule (h : s.Inv) (es : List Event) : (s.withSchedule es).Inv := { h with }

end

/-! ### The head of the queue -/

/-- An instruction that removes the head of RXQ is WAITSTEP while TXS = WAIT, or the receive of a free host. -/
theorem exec_removes_head {i : Instr} {s t : State} {q : Packet} (h : exec i s = .next t) (hq : s.rxq = q :: t.rxq) :
    (s.txs = .wait ∧ i = .waitstep) ∨ (s.txs = .idle ∧ s.pend = none ∧ i.receives ≠ none) := by
  obtain ⟨u, hu, hside⟩ := exec_blockEffect h
  rw [hside.rxq] at hq
  cases hu with
  | framed chunk acc ps hi =>
    have hlen := congrArg List.length hq
    simp only [List.length_cons, List.length_append] at hlen
    omega
  | acked _ rxq hs hrxq | resent _ _ rxq hs hrxq | dropped _ rxq hs hrxq =>
    rcases hrxq with rfl | ⟨hi, -⟩
    · exact absurd hq (List.cons_ne_self _ _).symm
    · exact .inl ⟨hs, hi⟩
  | took _ rest hs hp hi => exact .inr ⟨hs, hp, hi⟩
  | _ => exact absurd hq (List.cons_ne_self _ _).symm

end Sys2Proof.Machine

open Sys2Proof Sys2Proof.Machine

/-- Settles O31: of the effects on the block, only the issue of a TRANSMIT writes LAST. -/
theorem lastChangesOnlyAtIssue : Obligations.LastChangesOnlyAtIssue := by
  intro i s t h hne
  obtain ⟨u, hu, hside⟩ := exec_blockEffect h
  cases hu with
  | issued p hs => exact ⟨hs, hside.txs, p, hside.last, hside.txlog⟩
  | _ => exact absurd hside.last hne

/-- Settles O32: three effects write TXLOG, the issue of a TRANSMIT, a raw write, and the controller's answer to a
Retransmit-Request, which appends the packet in LAST. -/
theorem outboundRecordOnlyGrows : Obligations.OutboundRecordOnlyGrows := by
  intro i s t h
  obtain ⟨u, hu, hside⟩ := exec_blockEffect h
  cases hu with
  | issued p => exact .inr (.inl ⟨p, hside.last, hside.txlog⟩)
  | wrote bs hi =>
    rcases hi with hi | ⟨hi, rfl⟩
    · exact .inr (.inr (.inl ⟨bs, hi, hside.txlog⟩))
    · exact .inr (.inr (.inr ⟨hi, hside.txlog⟩))
  | resent q p rxq hs hq hlast => exact .inr (.inl ⟨p, hside.last.trans hlast, hside.txlog⟩)
  | _ => exact .inl hside.txlog

/-- Settles O33: WAIT is entered by the issue of a TRANSMIT alone, and left by the controller's act on `ACK_PKT`. -/
theorem txsMovesOnlyAtIssueAndAck : Obligations.TxsMovesOnlyAtIssueAndAck := by
  refine fun i s t h => ⟨fun hidle hwait => ?entered, fun hwait hidle => ?left⟩
  case entered =>
    obtain ⟨u, hu, hside⟩ := exec_blockEffect h
    cases hu with
    | issued p hs hi => exact ⟨p, hi, hside.last, hside.txlog⟩
    | acked _ _ hs | resent _ _ _ hs | dropped _ _ hs => exact absurd (hidle.symm.trans hs) (by decide)
    | untouched | framed | wrote | took =>
      exact absurd (hidle.symm.trans (hside.txs.symm.trans hwait)) (by decide)
  case left =>
    cases exec_ran h with
    | controlled s' q hs h' hc =>
      rcases h' with ⟨hi, rfl⟩ | ⟨hi, rest, hq, rfl⟩
      · obtain ⟨rfl, rfl⟩ := controllerAct_completes hs hidle hc
        exact ⟨rfl, rfl, rfl, .inr ⟨hi, rfl⟩⟩
      · obtain ⟨rfl, rfl⟩ := controllerAct_completes (s := s.withRxq rest) hs hidle hc
        exact ⟨rfl, rfl, rfl, .inl ⟨hi, hq⟩⟩
    | held | replied | raised | framed => exact absurd (hidle.symm.trans hwait) (by decide)
    | sent _ _ hs | wrote _ _ hs | suspended _ _ hs | took _ _ _ _ hs | received _ _ hs =>
      exact absurd (hwait.symm.trans hs) (by decide)

/-- Settles O34: the bytes the framer moves are those of ACC and the chunk, and a consumer takes the head. -/
theorem inboundBytesConserved : Obligations.InboundBytesConserved := by
  refine fun i s t h => ⟨?chunk, fun hrx => ?other⟩
  case chunk =>
    rintro chunk rfl
    obtain ⟨ps, -, hps, -, rfl⟩ := receiveChunk_next h
    simp [hps]
  case other =>
    by_cases hemit : i = .emit
    · subst hemit
      left
      rcases emitPacket_next h with ⟨-, rfl⟩ | ⟨-, -, p, hp, rfl⟩
      · rfl
      · simp [hp]
    · obtain ⟨hacc, hrxq | ⟨q, hq, -⟩⟩ := exec_queue hrx hemit h
      · exact .inl (by rw [hacc, hrxq])
      · exact .inr ⟨q, hq, hacc⟩

/-- Settles O54: an instruction keeps the invariant, and so does everything else a step can be. -/
theorem stepKeepsInvariant : Obligations.StepKeepsInvariant := by
  intro s t hinv h
  cases step_stepped h with
  | ran i es hf hx => exact (hinv.withSchedule es).of_exec hx
  | handed w q rest es hs hp hq hf hx => exact ((hinv.withSchedule es).withRxq hq).of_exec hx
  | held es => exact hinv.withSchedule es
  | settled es => exact (hinv.withSchedule es).settle
  | reset es => exact resetEvent_inv _
  | started fw es he hfw => exact (hinv.withSchedule es).start hfw

/-- Settles O55: no instruction writes the parameters or the image, and of the other steps only a start does. -/
theorem parametersNeverChange : Obligations.ParametersNeverChange := by
  intro s t h
  cases step_stepped h with
  | ran i es hf hx | handed _ _ _ es _ _ _ hf hx =>
    obtain ⟨hfw, hcfg, -⟩ := exec_parameters hx
    exact ⟨hcfg, .inl hfw⟩
  | held es => exact ⟨rfl, .inl rfl⟩
  | settled es =>
    obtain ⟨_, _, _, _, hset⟩ := (s.withSchedule es).settle_aside
    rw [hset]
    exact ⟨rfl, .inl rfl⟩
  | reset es => exact ⟨rfl, .inl rfl⟩
  | started fw es he => exact ⟨rfl, .inr ⟨es, he⟩⟩

/-- Settles O59: ACC, RXQ and the parameters by the effects on the block, the host's place by the controller's and
the pure operations' effects; of the steps, only a running instruction removes the head. -/
theorem othersLeaveFramerAlone : Obligations.OthersLeaveFramerAlone := by
  refine ⟨fun i s t hrx hemit h => ?instructions, fun s t q h hq hrst => ?steps⟩
  case instructions =>
    obtain ⟨hacc, hrxq⟩ := exec_queue hrx hemit h
    obtain ⟨hfw, hcfg, hsch⟩ := exec_parameters h
    refine ⟨hacc, hrxq, hfw, hcfg, hsch, ?_⟩
    rintro (hwait | hpure)
    · exact exec_place_of_wait h hwait
    · obtain ⟨_, _, rfl⟩ := exec_pure hpure h
      exact ⟨rfl, rfl, rfl⟩
  case steps =>
    cases step_stepped h with
    | ran i es hf hx =>
      rcases exec_removes_head hx hq with ⟨hs, rfl⟩ | ⟨hs, hp, hi⟩
      · exact ⟨fun _ => ⟨_, hf, rfl⟩, fun hidle => absurd (hidle.symm.trans hs) (by decide)⟩
      · exact ⟨fun hwait => absurd (hwait.symm.trans hs) (by decide), fun _ => .inr ⟨i, _, hp, hi, hf, rfl⟩⟩
    | handed w q' rest es hs hp hq' hf hx =>
      obtain ⟨rfl, rfl⟩ := List.cons.inj (hq'.symm.trans hq)
      exact ⟨fun hwait => absurd (hwait.symm.trans hs) (by decide), fun _ => .inl ⟨w, _, hp, hf, rfl⟩⟩
    | held es => exact absurd hq (List.cons_ne_self _ _).symm
    | settled es =>
      obtain ⟨_, _, _, _, hset⟩ := (s.withSchedule es).settle_aside
      rw [hset] at hq
      exact absurd hq (List.cons_ne_self _ _).symm
    | reset es he => exact absurd he (hrst es)
    | started fw es he => exact absurd hq (List.cons_ne_self _ _).symm

/-- Settles O49: each entry fetches the instruction it names; a wire unit is read by the layout of the host's state
as it stands, since no completed TRANSMIT is left to act on. -/
theorem stepRunsNamedEvent : Obligations.StepRunsNamedEvent := by
  intro s e es hs
  refine ⟨?_, ?_, ?_, ?_, ?_, ?_, ?_, ?wire⟩
  case wire =>
    rintro bs i rfl hph hdec
    refine step_of_run ?_
    simp only [fetch, hs, State.settle_of_ne hph, hdec]
    rfl
  all_goals
    intros
    subst_vars
    refine step_of_run ?_
    simp only [fetch, hs]
    rfl

/-- Settles O51: every value is the reset state's field, and the opcodes are lawful. -/
theorem resetState : Obligations.ResetState :=
  ⟨rfl, rfl, rfl, rfl, rfl, rfl, rfl, rfl, Config.opcodes_wf⟩

/-- Settles O53: the reset state is what the reset event makes of it. -/
theorem resetMeetsInvariant : Obligations.ResetMeetsInvariant :=
  resetEvent_inv State.reset

end

