-- ==== Sys2Proof/Proofs/Memory.lean ====
section
/-! SUPPORT. The proofs of the memory's statements (`spec/20_memory.md`): a packet's bytes through the framer and back
to the host. -/

namespace Sys2Proof.Machine

/-- RXCHUNK with room for every whole packet cuts them off in order and keeps the rest (R90). -/
theorem receiveChunk_of_room {chunk : List Byte} {s : State} (hr : s.room ((s.acc ++ chunk).length / 18)) :
    ∃ ps : List Packet, ps.length = (s.acc ++ chunk).length / 18 ∧
      (ps.map Packet.bytes).flatten = (s.acc ++ chunk).take (18 * ((s.acc ++ chunk).length / 18)) ∧
      receiveChunk chunk s = .next { s with
        acc := (s.acc ++ chunk).drop (18 * ((s.acc ++ chunk).length / 18)), rxq := s.rxq ++ ps } :=
  drain_of_room _ (s.withAcc (s.acc ++ chunk)) (Nat.div_le_self _ _) hr

/-- The bytes of one packet, arriving aligned, are queued as that packet (R37, R92). -/
theorem receiveChunk_packet {s : State} (p : Packet) (hacc : s.acc = []) (hr : s.room 1) :
    receiveChunk p.bytes s = .next { s with rxq := s.rxq ++ [p] } := by
  have hone : (s.acc ++ p.bytes).length / 18 = 1 := by simp [hacc, p.size]
  have htake : (s.acc ++ p.bytes).take (18 * 1) = p.bytes := by simp [hacc, p.size]
  have hrest : (s.acc ++ p.bytes).drop (18 * 1) = s.acc := by simp [hacc, p.size]
  obtain ⟨ps, hlen, hbytes, hnext⟩ := receiveChunk_of_room (chunk := p.bytes) (hone ▸ hr)
  rw [hone] at hlen hbytes hnext
  obtain ⟨q, rfl⟩ := List.length_eq_one_iff.1 hlen
  obtain rfl : q = p := Packet.ext_bytes (by simpa [htake] using hbytes)
  rwa [hrest] at hnext

/-- A TAKE by a free host hands over the head of RXQ and changes nothing else (R94). -/
theorem issueReceive_take_cons {s : State} {q : Packet} {rest : List Packet} (hs : s.txs = .idle)
    (hp : s.pend = none) (hq : s.rxq = q :: rest) :
    issueReceive .take s = .next { s with rxq := rest, rsp := some (.packet q) } :=
  calc issueReceive .take s
      = poll (s.suspend .take) := issueReceive_free hs hp
    _ = consume q ((s.suspend .take).withRxq rest) := poll_cons hq
    _ = hostAct .take q ((s.suspend .take).withRxq rest) := consume_idle (by simp [hs]) (by simp) q
    _ = .next { s with pend := none, rxq := rest, rsp := some (.packet q) } := rfl
    _ = _ := by rw [← hp]

end Sys2Proof.Machine

open Sys2Proof Sys2Proof.Machine

/-- Settles O60: the framer queues the packet of the 18 bytes, and TAKE empties the queue again. That the packet was
built matters only in that it has 18 bytes, which every packet has. -/
theorem builtPacketRoundTrips : Obligations.BuiltPacketRoundTrips := by
  intro s payload p _ hacc hrxq hidle hpend hroom
  have hqueued : ({ s with rxq := s.rxq ++ [p] } : State).rxq = p :: s.rxq := by simp [hrxq]
  exact ⟨_, _, receiveChunk_packet p hacc hroom, issueReceive_take_cons hidle hpend hqueued, rfl⟩

end

