-- ==== Sys2Proof/Proofs/Encoding.lean ====
section
/-! SUPPORT. The proofs of the encoding's statements (`spec/30_encoding.md`): what each reader makes of an encoding,
the packets BUILD makes, and the rows that abbreviate or decode to other operations. -/

namespace Sys2Proof

/-! ### Well-formed operands -/

theorem Instr.wellFormed_transmit (p : List Byte) : (Instr.transmit p).wellFormed = true ↔ p.length = pktLen := by
  simp [Instr.wellFormed, Instr.operandIsPacket, Instr.classIsOther, Instr.chunkInRange]

theorem Instr.wellFormed_pktOther (p : List Byte) : (Instr.pktOther p).wellFormed = true ↔
    p.length = pktLen ∧ p ≠ Machine.ackPkt.bytes ∧ p ≠ Machine.retxPkt.bytes := by
  simp [Instr.wellFormed, Instr.operandIsPacket, Instr.classIsOther, Instr.chunkInRange]

theorem Instr.wellFormed_hostFwChunk (c : List Byte) :
    (Instr.hostFwChunk c).wellFormed = true ↔ 1 ≤ c.length ∧ c.length ≤ payloadMax := by
  simp [Instr.wellFormed, Instr.operandIsPacket, Instr.classIsOther, Instr.chunkInRange]

/-! ### The CMD port -/

/-- TRANSMIT's transaction decodes where its operand is a packet (R57, R105). -/
theorem decodeCmd_transmit {p : List Byte} (h : p.length = pktLen) :
    decodeCmd (0x05#8 :: p) = .ok (.transmit p) := by simp [decodeCmd, h]

/-- A command decodes back from its encoding (R57). -/
theorem decodeCmd_of_encode {o : Opcodes} {i : Instr} {bs : List Byte} (hw : i.wellFormed = true)
    (hr : reader i = some .cmdPort) (he : encode o i = some bs) : decodeCmd bs = .ok i := by
  cases i with
  | crc8 | build | validate | take | writeraw => cases he; rfl
  | transmit p => cases he; exact decodeCmd_transmit ((Instr.wellFormed_transmit p).1 hw)
  | _ => cases hr

/-- What the CMD port decodes is a command whose encoding was read (R57). -/
theorem encode_of_decodeCmd (o : Opcodes) {i : Instr} {bs : List Byte} (h : decodeCmd bs = .ok i) :
    i.wellFormed = true ∧ reader i = some .cmdPort ∧ encode o i = some bs := by
  cases bs with
  | nil => cases h
  | cons code operand =>
    rw [decodeCmd] at h
    split_ifs at h with h1 h2 h3 h4 hnone h5 hlen h6
    · subst h1; cases h; exact ⟨rfl, rfl, rfl⟩
    · subst h2; cases h; exact ⟨rfl, rfl, rfl⟩
    · subst h3; cases h; exact ⟨rfl, rfl, rfl⟩
    · subst h4 hnone; cases h; exact ⟨rfl, rfl, rfl⟩
    · subst h5; cases h; exact ⟨(Instr.wellFormed_transmit operand).2 hlen, rfl, rfl⟩
    · subst h6; cases h; exact ⟨rfl, rfl, rfl⟩

/-- A code that is none of the six is refused by name (R57). -/
theorem decodeCmd_unassigned {code : Byte} (operand : List Byte) (h : code.toNat = 0 ∨ 6 < code.toNat) :
    decodeCmd (code :: operand) = .error (.unassignedCode code) := by
  have hne (c : Byte) (hc : 1 ≤ c.toNat ∧ c.toNat ≤ 6) : code ≠ c := by rintro rfl; omega
  rw [decodeCmd, if_neg (hne _ (by decide)), if_neg (hne _ (by decide)), if_neg (hne _ (by decide)),
    if_neg (hne _ (by decide)), if_neg (hne _ (by decide)), if_neg (hne _ (by decide))]

/-! ### Packets as their reader decodes them -/

/-- BUILD's bytes are those of the packet BUILD answers. -/
theorem packetBytes_eq_some {s bs : List Byte} :
    packetBytes s = some bs ↔ ∃ p, Machine.buildPacket s = some p ∧ p.bytes = bs := Option.map_eq_some_iff

theorem packetBytes_singleton (b : Byte) : packetBytes [b] = some (Machine.opPacket b).bytes := by
  rw [packetBytes, Machine.buildPacket_singleton, Option.map_some]

theorem decode_controller_bytes (o : Opcodes) (q : Packet) :
    decode o .controller q.bytes = .ok (decodePacket q) := by simp [decode]

theorem decode_hostIn_bytes (o : Opcodes) (q : Packet) :
    decode o .hostIn q.bytes = .ok (decodeHostIn o q) := by simp [decode]

/-- Eighteen bytes are not the marker: the outbound wire reads them as a packet (R50, R55). -/
theorem decode_wireOut_bytes (o : Opcodes) (h : HostState) (q : Packet) :
    decode o (.wireOut h) q.bytes = decodeHostOut o h q := by
  have hne : q.bytes ≠ syncMarker := fun e => absurd (congrArg List.length e) (by simp [q.size])
  simp [decode, decodeWire, hne]

theorem decodePacket_other {q : Packet} (ha : q ≠ Machine.ackPkt) (hr : q ≠ Machine.retxPkt) :
    decodePacket q = .pktOther q.bytes := by simp [decodePacket, Machine.classify_other ha hr]

/-- The three readings of a packet by the block, each with its equality (R52, R79). -/
theorem decodePacket_cases (q : Packet) :
    (q = Machine.ackPkt ∧ decodePacket q = .pktAck) ∨ (q = Machine.retxPkt ∧ decodePacket q = .pktRetx) ∨
      (q ≠ Machine.ackPkt ∧ q ≠ Machine.retxPkt ∧ decodePacket q = .pktOther q.bytes) := by
  rcases Machine.classify_cases q with ⟨rfl, -⟩ | ⟨rfl, -⟩ | ⟨ha, hr, -⟩
  · exact .inl ⟨rfl, decodePacket_ackPkt⟩
  · exact .inr (.inl ⟨rfl, decodePacket_retxPkt⟩)
  · exact .inr (.inr ⟨ha, hr, decodePacket_other ha hr⟩)

theorem decodePacket_eq_pktAck {q : Packet} : decodePacket q = .pktAck ↔ q = Machine.ackPkt := by
  rcases decodePacket_cases q with ⟨rfl, h⟩ | ⟨rfl, h⟩ | ⟨ha, -, h⟩
  · simp [h]
  · simp [h, Machine.ackPkt_ne_retxPkt.symm]
  · simp [h, ha]

theorem decodePacket_eq_pktRetx {q : Packet} : decodePacket q = .pktRetx ↔ q = Machine.retxPkt := by
  rcases decodePacket_cases q with ⟨rfl, h⟩ | ⟨rfl, h⟩ | ⟨-, hr, h⟩
  · simp [h, Machine.ackPkt_ne_retxPkt]
  · simp [h]
  · simp [h, hr]

theorem decodePacket_eq_pktOther {q : Packet} :
    decodePacket q = .pktOther q.bytes ↔ q ≠ Machine.ackPkt ∧ q ≠ Machine.retxPkt := by
  rcases decodePacket_cases q with ⟨rfl, h⟩ | ⟨rfl, h⟩ | ⟨ha, hr, h⟩
  · simp [h]
  · simp [h]
  · simp [h, ha, hr]

/-! ### Encodings read back, reader by reader -/

/-- The controller reads a packet class off its encoding (R52). -/
theorem decode_controller_of_encode {o : Opcodes} {i : Instr} {bs : List Byte} (hw : i.wellFormed = true)
    (hr : reader i = some .controller) (he : encode o i = some bs) : decode o .controller bs = .ok i := by
  cases i with
  | pktAck =>
    cases (packetBytes_singleton ackByte).symm.trans he
    exact (decode_controller_bytes o _).trans (congrArg _ decodePacket_ackPkt)
  | pktRetx =>
    cases (packetBytes_singleton retxByte).symm.trans he
    exact (decode_controller_bytes o _).trans (congrArg _ decodePacket_retxPkt)
  | pktOther p =>
    obtain rfl : p = bs := Option.some.inj he
    obtain ⟨hlen, hack, hretx⟩ := (Instr.wellFormed_pktOther p).1 hw
    have hother := decodePacket_other (q := ⟨p, hlen⟩) (mt (congrArg Packet.bytes) hack)
      (mt (congrArg Packet.bytes) hretx)
    exact (decode_controller_bytes o ⟨p, hlen⟩).trans (congrArg _ hother)
  | _ => cases hr

/-- The host reads each of its six inbound packets for what it is, since the opcodes are distinct (R9, R56). -/
theorem decode_hostIn_of_encode {o : Opcodes} {i : Instr} {bs : List Byte} (ho : o.wf = true)
    (hr : reader i = some .hostIn) (he : encode o i = some bs) : decode o .hostIn bs = .ok i := by
  obtain ⟨hnodup, -⟩ := o.wf_iff.1 ho
  simp only [Opcodes.toList, List.nodup_cons, List.mem_cons, not_or] at hnodup
  cases i with
  | hostSeqObserved | hostUpdateReq | hostDeviceIdReq | hostFwLengthReq | hostReadyForData
  | hostUpdateSuccess =>
    cases (packetBytes_singleton _).symm.trans he
    rw [decode_hostIn_bytes]
    simp [decodeHostIn, Machine.opPacket_inj, hnodup, eq_comm]
  | _ => cases hr

/-- The length field of a built Firmware-Length-Response (R56). -/
theorem fwLength_field {o : Opcodes} {len : BitVec 32} {p : Packet}
    (h : Machine.buildPacket (Machine.fwLengthPayload o len) = some p) :
    Machine.ofBe32 ((p.bytes.drop 2).take 4) = len := by
  obtain ⟨-, hb⟩ := Machine.buildPacket_eq_some.1 h
  have hfield : (p.bytes.drop 2).take 4 = Machine.be32 len.toNat := by rw [hb]; rfl
  rw [hfield, Machine.ofBe32_be32]

/-- The outbound wire reads the marker and, each in its state, the host's packets (R5, R55, R56). -/
theorem decode_wireOut_of_encode {o : Opcodes} {i : Instr} {h : HostState} {bs : List Byte}
    (hw : i.wellFormed = true) (hr : reader i = some (.wireOut h)) (he : encode o i = some bs) :
    decode o (.wireOut h) bs = .ok i := by
  cases i with
  | sync => cases hr; cases he; rfl
  | hostUpdateRes =>
    cases hr
    cases (packetBytes_singleton _).symm.trans he
    exact (decode_wireOut_bytes o _ _).trans (if_pos rfl)
  | hostDeviceIdRes =>
    cases hr
    obtain ⟨p, hp, rfl⟩ := packetBytes_eq_some.1 he
    rw [decode_wireOut_bytes]
    simp [decodeHostOut, hp]
  | hostFwLengthRes len =>
    cases hr
    obtain ⟨p, hp, rfl⟩ := packetBytes_eq_some.1 he
    rw [decode_wireOut_bytes]
    simp [decodeHostOut, fwLength_field hp, hp]
  | hostFwChunk c =>
    cases hr
    obtain ⟨p, hp, rfl⟩ := packetBytes_eq_some.1 he
    obtain ⟨hpos, -⟩ := (Instr.wellFormed_hostFwChunk c).1 hw
    rw [decode_wireOut_bytes]
    simp [decodeHostOut, Machine.wf_build hp, Machine.lengthByte_build hp, Machine.payloadOf_build hp, hpos]
  | _ => cases hr

end Sys2Proof

namespace Sys2Proof.Machine

/-! ### Well-formed packets -/

/-- A payload the length byte announces is that long: 17 bytes follow the length byte (R51). -/
theorem payloadOf_length {p : Packet} (hl : lengthByte p ≤ payloadMax) : (payloadOf p).length = lengthByte p := by
  have hsize := p.size
  simp only [payloadOf, List.length_take, List.length_drop, payloadMax] at *
  omega

/-- The body of a packet is its length byte, the payload that announces, and what is left (R50, R51). -/
theorem body_split {p : Packet} (hl : lengthByte p ≤ payloadMax) :
    p.bytes.take bodyLen = BitVec.ofNat 8 (lengthByte p) ::
      (payloadOf p ++ (p.bytes.take bodyLen).drop (1 + lengthByte p)) := by
  obtain ⟨bytes, hsize⟩ := p
  obtain ⟨b, rest, rfl⟩ := List.exists_cons_of_length_eq_add_one hsize
  have hpayload : payloadOf ⟨b :: rest, hsize⟩ = (rest.take 16).take b.toNat := by
    rw [List.take_take, Nat.min_eq_left (show b.toNat ≤ 16 from hl)]; rfl
  rw [hpayload]
  simp [lengthByte, Nat.add_comm 1]

/-- What is left of a well-formed body is as many 0xFF as the payload is short of 16 bytes (R51). -/
theorem padding_eq_replicate {p : Packet}
    (hpad : ((p.bytes.take bodyLen).drop (1 + lengthByte p)).all (· == padByte) = true) :
    (p.bytes.take bodyLen).drop (1 + lengthByte p) = List.replicate (payloadMax - lengthByte p) padByte := by
  refine List.eq_replicate_iff.2 ⟨?_, by simpa using hpad⟩
  have hsize := p.size
  simp only [List.length_take, List.length_drop, bodyLen, payloadMax]
  omega

/-- A well-formed packet is what BUILD makes of its payload (R62). -/
theorem buildPacket_payloadOf {p : Packet} (h : wellFormedPacket p = true) :
    buildPacket (payloadOf p) = some p := by
  simp only [wellFormedPacket, Bool.and_eq_true, decide_eq_true_iff, beq_iff_eq] at h
  obtain ⟨⟨hl, hpad⟩, hcrc⟩ := h
  have hlen := payloadOf_length hl
  have hbody : packetBody (payloadOf p) = p.bytes.take bodyLen := by
    rw [packetBody, hlen, body_split hl, padding_eq_replicate hpad]
  refine buildPacket_eq_some.2 ⟨hlen.trans_le hl, ?_⟩
  rw [buildBytes, hbody]
  calc p.bytes
      = p.bytes.take (17 + 1) := (List.take_of_length_le p.size.le).symm
    _ = p.bytes.take 17 ++ [crc8 (p.bytes.take 17)] := by rw [List.take_add_one, hcrc]; rfl

/-! ### Rows that are other operations -/

theorem exec_transmit_bytes (p : Packet) (s : State) : exec (.transmit p.bytes) s = transmitPacket p s := by
  simp [exec, execTransmit]

theorem exec_pktOther_bytes (q : Packet) (s : State) : exec (.pktOther q.bytes) s = consume q s := by
  simp [exec, execPktOther]

/-- WAITSTEP on a queued packet is its consumption (R106). -/
theorem exec_waitstep_cons {s : State} {q : Packet} {rest : List Packet} (hs : s.txs = .wait)
    (hq : s.rxq = q :: rest) : exec .waitstep s = consume q (s.withRxq rest) := by
  simp only [exec, execWaitstep, hs, poll_cons hq]

/-- A packet handed to an outstanding TAKE completes it (R94, R95). -/
theorem consume_take {s : State} (hs : s.txs = .idle) (hp : s.pend = some .take) (q : Packet) :
    consume q s = .next { s with pend := none, rsp := some (.packet q) } := consume_idle hs hp q

theorem hostAct_await_self (op : Byte) (s : State) :
    hostAct (.await op) (opPacket op) s = .next ((s.release .done).received true) := if_pos rfl

theorem hostAct_expect_self (op : Byte) (s : State) :
    hostAct (.expect op) (opPacket op) s = .next ((s.release .ok).received true) := if_pos rfl

theorem hostAct_await_ne {op : Byte} {q : Packet} (h : q ≠ opPacket op) (s : State) :
    hostAct (.await op) q s = .next s := if_neg h

theorem hostAct_expect_ne {op : Byte} {q : Packet} (h : q ≠ opPacket op) (s : State) :
    hostAct (.expect op) q s = .next ((s.release .mismatch).received false) := if_neg h

/-- SENDACKED by a free host outside a session is the TRANSMIT of the built packet (R60, R127). -/
theorem hostSend_unstarted {payload : List Byte} {s : State} {p : Packet} (hb : buildPacket payload = some p)
    (hs : s.txs = .idle) (hp : s.pend = none) (hph : s.phase = .unstarted) :
    hostSend payload s = transmitPacket p s := by
  rw [hostSend_free hb hs hp, State.begin_unstarted hph]

/-- An over-long BUILD faults (R75). -/
theorem execBuild_long {payload : List Byte} {s : State} (h : payloadMax < payload.length) :
    execBuild payload s = .next (s.raise (.contractViolation payload.length)) := by
  simp only [execBuild, buildPacket_of_lt h]

/-- AWAIT and EXPECT by a free host outside a session: the receive is outstanding, and the head of RXQ is taken
where there is one (R60). -/
theorem hostReceive_unstarted {w : Pend} {s : State} (hs : s.txs = .idle) (hp : s.pend = none)
    (hph : s.phase = .unstarted) : hostReceive w s = poll (s.suspend w) := by
  rw [hostReceive_free hs hp, State.begin_unstarted hph, issueReceive_free hs hp]

/-- The same with a packet queued: the host acts on the head. -/
theorem hostReceive_unstarted_cons {w : Pend} {s : State} {q : Packet} {rest : List Packet} (hs : s.txs = .idle)
    (hp : s.pend = none) (hph : s.phase = .unstarted) (hq : s.rxq = q :: rest) :
    hostReceive w s = hostAct w q ((s.suspend w).withRxq rest) := by
  calc hostReceive w s
      = poll (s.suspend w) := hostReceive_unstarted hs hp hph
    _ = consume q ((s.suspend w).withRxq rest) := poll_cons hq
    _ = hostAct w q ((s.suspend w).withRxq rest) := consume_idle (s := (s.suspend w).withRxq rest) hs rfl q

/-- A receive that ends outside a session moves nothing but RXQ and RSP. -/
theorem received_unstarted {s : State} {w : Pend} {r : Reply} {b : Bool} {rest : List Packet} (hp : s.pend = none)
    (hph : s.phase = .unstarted) :
    (((s.suspend w).withRxq rest).release r).received b = { s with rxq := rest, rsp := some r } := by
  calc (((s.suspend w).withRxq rest).release r).received b
      = { s with rxq := rest, pend := none, rsp := some r } := State.received_of_ne (by simp [hph])
    _ = { s with rxq := rest, rsp := some r } := by rw [← hp]

end Sys2Proof.Machine

open Sys2Proof Sys2Proof.Machine

/-- Settles O1: each reader reads back what is encoded for it. -/
theorem decodeInvertsEncode : Obligations.DecodeInvertsEncode := by
  intro o i r bs ho hw hr he
  cases r with
  | cmdPort => exact decodeCmd_of_encode hw hr he
  | controller => exact decode_controller_of_encode hw hr he
  | hostIn => exact decode_hostIn_of_encode ho hr he
  | wireOut h => exact decode_wireOut_of_encode hw hr he

/-- Settles O2: decoding and encoding on the CMD port are inverse, and no seventh code is assigned. -/
theorem commandWordsHaveOneMeaning : Obligations.CommandWordsHaveOneMeaning :=
  ⟨fun o _ _ => ⟨encode_of_decodeCmd o, fun ⟨hw, hr, he⟩ => decodeCmd_of_encode hw hr he⟩,
    fun _ operand h => decodeCmd_unassigned operand h⟩

/-- Settles O15: a well-formed packet is rebuilt from its payload, and what is built is well formed. -/
theorem wellFormedIsBuilt : Obligations.WellFormedIsBuilt := by
  refine fun p => ⟨⟨fun h => ?built, fun ⟨_, _, hb⟩ => wf_build hb⟩, fun _ hb => (payloadOf_build hb).symm⟩
  case built =>
    have hb := buildPacket_payloadOf h
    exact ⟨payloadOf p, (buildPacket_eq_some.1 hb).1, hb⟩

/-- Settles O26: both are the consumption of the head. -/
theorem waitstepRunsDecodedPacket : Obligations.WaitstepRunsDecodedPacket := by
  intro s q rest hs hq
  rw [exec_waitstep_cons hs hq, ← exec_decodePacket]
  rfl

/-- Settles O30: every packet row is the consumption of its packet, by the controller or by the host's TAKE. -/
theorem packetRowsAct : Obligations.PacketRowsAct := by
  intro s p q hack hretx
  refine ⟨(exec_decodePacket _ s).symm, (exec_decodePacket _ s).symm, (exec_decodePacket _ s).symm,
    (exec_decodePacket _ s).symm, (exec_decodePacket _ s).symm, (exec_decodePacket _ s).symm,
    fun hwait hlast => ⟨?_, ?_, ?_⟩, fun hidle hpend => ⟨?_, ?_, ?_⟩⟩
  · exact (consume_wait hwait ackPkt).trans (controllerAct_ack s)
  · exact (consume_wait hwait retxPkt).trans (controllerAct_retx hlast)
  · rw [exec_pktOther_bytes, consume_wait hwait, controllerAct_other hack hretx]
  · exact consume_take hidle hpend ackPkt
  · exact consume_take hidle hpend retxPkt
  · rw [exec_pktOther_bytes, consume_take hidle hpend]

/-- Settles O40: a SENDACKED outside a session is the TRANSMIT of what BUILD makes, or BUILD's fault, and the host's
outbound rows are SENDACKEDs by definition. -/
theorem sendackedBuildsThenTransmits : Obligations.SendackedBuildsThenTransmits := by
  refine fun s payload => ⟨fun hlen hidle hpend hph => ?short, fun hlen => ?long, rfl, rfl, fun _ => rfl, rfl⟩
  case short =>
    have hb := buildPacket_of_le hlen
    have hsend : exec (.sendacked payload) s = transmitPacket _ s := hostSend_unstarted hb hidle hpend hph
    exact ⟨_, hb, by rw [hsend, exec_transmit_bytes], hsend.trans (transmitPacket_free hidle hpend)⟩
  case long => exact (hostSend_long hlen).trans (execBuild_long hlen).symm

/-- Settles O41: the host acts on the head of RXQ, or its receive stays outstanding. -/
theorem awaitAndExpectTakeTheHead : Obligations.AwaitAndExpectTakeTheHead := by
  intro s op hidle hpend hph
  have htake {q : Packet} {rest : List Packet} (hq : s.rxq = q :: rest) (w : Pend) :
      hostReceive w s = hostAct w q ((s.suspend w).withRxq rest) :=
    hostReceive_unstarted_cons hidle hpend hph hq
  refine ⟨fun rest hq => ⟨(htake hq _).trans ?awaited, (htake hq _).trans ?expected⟩,
    fun q rest hq hne => ⟨(htake hq _).trans (hostAct_await_ne hne _), (htake hq _).trans ?mismatch⟩,
    fun hq => ?empty⟩
  case awaited => rw [hostAct_await_self, received_unstarted hpend hph]
  case expected => rw [hostAct_expect_self, received_unstarted hpend hph]
  case mismatch => rw [hostAct_expect_ne hne, received_unstarted hpend hph]
  case empty =>
    have hnil (w : Pend) : hostReceive w s = .next { s with pend := some w, rsp := none } :=
      (hostReceive_unstarted hidle hpend hph).trans (poll_nil hq)
    exact ⟨hnil (.await op), hnil (.expect op)⟩

/-- Settles O4: BUILD is injective. -/
theorem ackPacketBytes : Obligations.AckPacketBytes :=
  ⟨buildPacket_singleton ackByte, ackPkt_bytes, fun _ h => buildPacket_inj h (buildPacket_singleton ackByte)⟩

/-- Settles O5: BUILD is injective. -/
theorem retxPacketBytes : Obligations.RetxPacketBytes :=
  ⟨buildPacket_singleton retxByte, retxPkt_bytes, fun _ h => buildPacket_inj h (buildPacket_singleton retxByte)⟩

/-- Settles O6: each class is an equality of packets, which is one of bytes. -/
theorem packetClassesAreEqualities : Obligations.PacketClassesAreEqualities := by
  intro q
  rw [← ackPkt_bytes, ← retxPkt_bytes, Packet.bytes_inj, Packet.bytes_inj]
  exact ⟨decodePacket_eq_pktAck, decodePacket_eq_pktRetx, decodePacket_eq_pktOther⟩

/-- Settles O48: the fetch decodes the transaction. -/
theorem stepRunsCommand : Obligations.StepRunsCommand := by
  intro s bs es hs
  refine ⟨fun i hdec => step_of_run ?_, fun e hdec => ?_⟩
  · simp only [fetch, hs, hdec]
    rfl
  · simp only [step, fetch, hs, hdec, Fetched.ofDecoded]

end

