-- ==== Sys2Proof/Proofs/Codec.lean ====
section
/-! SUPPORT. The proofs of the codec's statements (`spec/41_codec.md`): a round of CRC-8 as an additive bijection of
period 127, what that makes of whole messages and of their errors, and the completions of CRC8, BUILD and VALIDATE. -/

namespace Sys2Proof.Machine

/-! ### One round -/

/-- A round without its test: POLY times bit 7 is XORed to the shift (R71). -/
theorem crcRound_eq (c : Byte) : crcRound c = (c <<< 1) ^^^ (if c.getLsbD 7 then poly else 0#8) := by
  have htest : c &&& 0x80#8 ≠ 0#8 ↔ c.getLsbD 7 = true := by
    rw [show 0x80#8 = BitVec.twoPow 8 7 from rfl, BitVec.and_twoPow]
    cases c.getLsbD 7 <;> decide
  by_cases hb : c.getLsbD 7 = true
  · rw [crcRound, if_pos (htest.2 hb), if_pos hb]
  · rw [crcRound, if_neg (mt htest.1 hb), if_neg hb, BitVec.xor_zero]

/-- Bit 7 comes back as bit 0 (R72 item 1). -/
theorem crcRound_bit_zero (c : Byte) : (crcRound c).getLsbD 0 = c.getLsbD 7 := by
  rw [crcRound_eq]
  cases c.getLsbD 7 <;> simp [poly]

/-- The other seven bits move up, with the upper bits of POLY XORed where bit 7 was set (R72 item 1). -/
theorem crcRound_bits_high (c : Byte) :
    (crcRound c).extractLsb' 1 7 = c.extractLsb' 0 7 ^^^ (if c.getLsbD 7 then 0b0000011#7 else 0#7) := by
  have hshift : (c <<< 1).extractLsb' 1 7 = c.extractLsb' 0 7 := by
    ext i hi
    simp [BitVec.getLsbD_eq_getElem (x := c) (i := i) (by omega), show 1 + i < 8 by omega]
  rw [crcRound_eq, BitVec.extractLsb'_xor, hshift]
  cases c.getLsbD 7 <;> rfl

/-- A round is additive (R72 item 2): the shift is, and bit 7 of an XOR is the XOR of the bits. -/
theorem crcRound_xor (x y : Byte) : crcRound (x ^^^ y) = crcRound x ^^^ crcRound y := by
  have hpoly : (if (x ^^^ y).getLsbD 7 then poly else 0#8) =
      (if x.getLsbD 7 then poly else 0#8) ^^^ (if y.getLsbD 7 then poly else 0#8) := by
    rw [BitVec.getLsbD_xor]
    cases x.getLsbD 7 <;> cases y.getLsbD 7 <;> rfl
  rw [crcRound_eq, crcRound_eq x, crcRound_eq y, hpoly, BitVec.shiftLeft_xor_distrib]
  ac_rfl

/-! ### Many rounds -/

theorem crcRounds_eq_iterate (n : Nat) (c : Byte) : crcRounds n c = crcRound^[n] c := by
  induction n generalizing c with
  | zero => rfl
  | succ n ih => exact ih (crcRound c)

@[simp] theorem crcRounds_zero_byte (n : Nat) : crcRounds n 0x00#8 = 0x00#8 := by
  induction n with
  | zero => rfl
  | succ n ih => exact ih

theorem crcRounds_xor (n : Nat) (x y : Byte) : crcRounds n (x ^^^ y) = crcRounds n x ^^^ crcRounds n y := by
  induction n generalizing x y with
  | zero => rfl
  | succ n ih => rw [crcRounds_succ, crcRound_xor, ih]; rfl

theorem crcRounds_comm (m n : Nat) (c : Byte) : crcRounds m (crcRounds n c) = crcRounds n (crcRounds m c) := by
  rw [← crcRounds_add, ← crcRounds_add, Nat.add_comm]

/-- The single bits are the first eight rounds of 0x01, since nothing leaves at bit 7 before. -/
theorem crcRounds_one_eq_twoPow : ∀ k < 8, crcRounds k 0x01#8 = BitVec.twoPow 8 k := by decide

/-- The lowest `n + 1` bits are the lowest `n` and bit `n`. -/
theorem low_bits_succ (c : Byte) (n : Nat) : (c.setWidth (n + 1)).setWidth 8 =
    (c.setWidth n).setWidth 8 ^^^ (if c.getLsbD n then BitVec.twoPow 8 n else 0x00#8) := by
  ext i hi
  by_cases hin : i = n
  · subst hin
    cases hb : c.getLsbD i <;> simp [hb]
  · have hle : i ≤ n ↔ i < n := by omega
    cases hb : c.getLsbD n <;> simp [hin, hle]

/-- What holds of 0x00 and of the single bits, and of the XOR of any two bytes it holds of, holds of every byte. -/
theorem byte_xor_induction {P : Byte → Prop} (zero : P 0x00#8) (bit : ∀ k < 8, P (BitVec.twoPow 8 k))
    (xor : ∀ x y, P x → P y → P (x ^^^ y)) (c : Byte) : P c := by
  have hlow (n : Nat) (hn : n ≤ 8) : P ((c.setWidth n).setWidth 8) := by
    induction n with
    | zero => rwa [BitVec.eq_nil (c.setWidth 0)]
    | succ n ih =>
      rw [low_bits_succ]
      refine xor _ _ (ih (by omega)) ?_
      split
      · exact bit n hn
      · exact zero
  simpa using hlow 8 le_rfl

/-- R72 item 7: 127 rounds give 0x01 back, so also the other single bits, which are rounds of it, and so every byte,
which is an XOR of them. -/
theorem crcRounds_period (c : Byte) : crcRounds 127 c = c := by
  have hone : crcRounds 127 0x01#8 = 0x01#8 := by decide +kernel
  induction c using byte_xor_induction with
  | zero => exact crcRounds_zero_byte 127
  | bit k hk => rw [← crcRounds_one_eq_twoPow k hk, crcRounds_comm, hone]
  | xor x y hx hy => rw [crcRounds_xor, hx, hy]

/-- A round is undone by the 126 that complete the period. -/
theorem crcRound_bijective : Function.Bijective crcRound :=
  Function.bijective_iff_has_inverse.2
    ⟨crcRounds 126, crcRounds_period, fun c => (crcRounds_comm 1 126 c).trans (crcRounds_period c)⟩

theorem crcRounds_injective (n : Nat) : Function.Injective (crcRounds n) := by
  rw [show crcRounds n = crcRound^[n] from funext (crcRounds_eq_iterate n)]
  exact crcRound_bijective.injective.iterate n

/-- The period is no shorter: it divides the prime 127, and one round moves 0x01. -/
theorem crcRounds_one_eq_one_iff (d : Nat) : crcRounds d 0x01#8 = 0x01#8 ↔ 127 ∣ d := by
  have hprime : Fact (Nat.Prime 127) := ⟨by norm_num⟩
  have hperiodic : Function.IsPeriodicPt crcRound 127 0x01#8 :=
    (crcRounds_eq_iterate 127 _).symm.trans (crcRounds_period _)
  have hmoved : ¬ Function.IsFixedPt crcRound 0x01#8 := fun h => absurd h.eq (by decide)
  rw [crcRounds_eq_iterate, ← Function.minimalPeriod_eq_prime hperiodic hmoved,
    ← Function.isPeriodicPt_iff_minimalPeriod_dvd]
  rfl

/-! ### One byte -/

/-- The step depends on the XOR of accumulator and byte alone, so a table indexed by it is exact (R72 item 2). -/
theorem crcByte_eq_table (c b : Byte) : crcByte c b = crcByte 0x00#8 (c ^^^ b) := by
  rw [crcByte, crcByte, BitVec.zero_xor]

theorem crcByte_zero_left (b : Byte) : crcByte 0x00#8 b = crcRounds 8 b := by
  rw [crcByte, BitVec.zero_xor]

theorem crcByte_zero_right (c : Byte) : crcByte c 0x00#8 = crcRounds 8 c := by
  rw [crcByte, BitVec.xor_zero]

theorem crcByte_xor (c d x y : Byte) : crcByte (c ^^^ d) (x ^^^ y) = crcByte c x ^^^ crcByte d y := by
  rw [crcByte, crcByte, crcByte, ← crcRounds_xor]
  congr 1
  ac_rfl

/-- R72 item 1: eight rounds map nothing but 0x00 to 0x00. -/
theorem crcByte_eq_zero_iff (c b : Byte) : crcByte c b = 0x00#8 ↔ c = b :=
  calc crcRounds 8 (c ^^^ b) = 0x00#8
      ↔ crcRounds 8 (c ^^^ b) = crcRounds 8 0x00#8 := by rw [crcRounds_zero_byte]
    _ ↔ c ^^^ b = 0x00#8 := (crcRounds_injective 8).eq_iff
    _ ↔ c = b := BitVec.xor_eq_zero_iff

theorem crcByte_left_injective (b : Byte) : Function.Injective (crcByte · b) := fun _ _ h =>
  BitVec.xor_left_inj b |>.1 (crcRounds_injective 8 h)

theorem crcByte_right_injective (c : Byte) : Function.Injective (crcByte c) := fun _ _ h =>
  BitVec.xor_right_inj c |>.1 (crcRounds_injective 8 h)

/-! ### Whole messages -/

/-- The fold from any accumulator is additive in accumulator and message together (R72 item 5). -/
theorem foldl_crcByte_zipWith (c d : Byte) (s t : List Byte) (h : s.length = t.length) :
    (List.zipWith (· ^^^ ·) s t).foldl crcByte (c ^^^ d) = s.foldl crcByte c ^^^ t.foldl crcByte d := by
  induction s generalizing c d t with
  | nil => rw [List.length_eq_zero_iff.1 h.symm]; rfl
  | cons x s ih =>
    obtain ⟨y, t, rfl⟩ := List.exists_cons_of_length_eq_add_one h.symm
    simp only [List.zipWith_cons_cons, List.foldl_cons, crcByte_xor]
    exact ih _ _ t (Nat.succ.inj h)

theorem crc8_zipWith {s t : List Byte} (h : s.length = t.length) :
    crc8 (List.zipWith (· ^^^ ·) s t) = crc8 s ^^^ crc8 t :=
  foldl_crcByte_zipWith crcInit crcInit s t h

/-- Zero bytes only run the rounds. -/
theorem foldl_crcByte_zeros (c : Byte) (n : Nat) :
    (List.replicate n 0x00#8).foldl crcByte c = crcRounds (8 * n) c := by
  induction n generalizing c with
  | zero => rfl
  | succ n ih =>
    rw [List.replicate_succ, List.foldl_cons, ih, crcByte_zero_right, ← crcRounds_add, Nat.mul_succ, Nat.add_comm]

theorem foldl_crcByte_injective (s : List Byte) : Function.Injective (s.foldl crcByte ·) := by
  induction s with
  | nil => exact fun _ _ h => h
  | cons b s ih => exact fun _ _ h => crcByte_left_injective b (ih h)

theorem crc8_zeros_append (n : Nat) (s : List Byte) : crc8 (List.replicate n 0x00#8 ++ s) = crc8 s := by
  rw [crc8, List.foldl_append, foldl_crcByte_zeros, crcRounds_zero_byte, crc8]

/-- R72 item 3: one byte brings a message to residue zero, its checksum. -/
theorem crc8_concat_eq_zero_iff (s : List Byte) (b : Byte) : crc8 (s ++ [b]) = 0x00#8 ↔ b = crc8 s := by
  rw [crc8_concat, crcByte_eq_zero_iff, eq_comm]

/-- Messages that differ at most in one byte have one CRC-8 only if they are equal (R72 item 6). -/
theorem crc8_set_eq_iff {p : List Byte} {i : Nat} (hi : i < p.length) (b : Byte) :
    crc8 (p.set i b) = crc8 p ↔ b = p[i] := by
  have hset (x : Byte) : crc8 (p.set i x) = (p.drop (i + 1)).foldl crcByte (crcByte (crc8 (p.take i)) x) := by
    rw [List.set_eq_take_cons_drop x hi, crc8, crc8, List.foldl_append, List.foldl_cons]
  calc crc8 (p.set i b) = crc8 p
      ↔ crc8 (p.set i b) = crc8 (p.set i p[i]) := by rw [List.set_getElem_self]
    _ ↔ b = p[i] := by rw [hset, hset, (foldl_crcByte_injective _).eq_iff, (crcByte_right_injective _).eq_iff]

/-! ### Single bits of a packet -/

/-- 18 bytes with one bit set, bit position `n` being bit `7 - n mod 8` of byte `n div 8` (R72 item 8). -/
def singleBit (n : Nat) : List Byte :=
  (List.replicate 18 0x00#8).set (n / 8) (0x80#8 >>> (n % 8))

@[simp] theorem singleBit_length (n : Nat) : (singleBit n).length = 18 := by simp [singleBit]

theorem singleBit_getElem {n k : Nat} (hk : k < (singleBit n).length) :
    (singleBit n)[k] = if n / 8 = k then 0x80#8 >>> (n % 8) else 0x00#8 := by
  simp only [singleBit, List.getElem_set, List.getElem_replicate]

theorem singleBit_eq_zeros {n : Nat} (hn : n < 144) :
    singleBit n = List.replicate (n / 8) 0x00#8 ++ (0x80#8 >>> (n % 8)) :: List.replicate (17 - n / 8) 0x00#8 := by
  have hindex : n / 8 < (List.replicate 18 0x00#8).length := by rw [List.length_replicate]; omega
  rw [singleBit, List.set_eq_take_cons_drop _ hindex, List.take_replicate, List.drop_replicate,
    Nat.min_eq_left (by omega), Nat.sub_add_eq, Nat.sub_right_comm]

/-- A bit at position `n` is shifted in before `151 - n` rounds. -/
theorem crc8_singleBit {n : Nat} (hn : n < 144) : crc8 (singleBit n) = crcRounds (151 - n) 0x01#8 := by
  have hbit : ∀ j < 8, 0x80#8 >>> j = crcRounds (7 - j) 0x01#8 := by decide
  rw [singleBit_eq_zeros hn, crc8_zeros_append, crc8, List.foldl_cons, crcByte_zero_left, foldl_crcByte_zeros,
    hbit _ (by omega), ← crcRounds_add, ← crcRounds_add]
  congr 1
  omega

/-- The errors at two positions cancel when the rounds between them give 0x01 back. -/
theorem crc8_singleBit_eq_iff {m n : Nat} (hmn : m ≤ n) (hn : n < 144) :
    crc8 (singleBit m) = crc8 (singleBit n) ↔ 127 ∣ n - m := by
  rw [crc8_singleBit hn, crc8_singleBit (by omega), show 151 - m = (n - m) + (151 - n) by omega, crcRounds_add,
    (crcRounds_injective _).eq_iff, crcRounds_one_eq_one_iff]

/-- Two flipped bits are two single-bit messages XORed to the packet (R72 item 8). -/
theorem flipBits_eq_zipWith {p : List Byte} (hp : p.length = 18) (m n : Nat) :
    ((List.range 18).map fun k =>
        p.getD k 0x00#8 ^^^ (if m / 8 = k then 0x80#8 >>> (m % 8) else 0x00#8)
          ^^^ (if n / 8 = k then 0x80#8 >>> (n % 8) else 0x00#8)) =
      List.zipWith (· ^^^ ·) (List.zipWith (· ^^^ ·) p (singleBit m)) (singleBit n) := by
  refine List.ext_getElem (by simp [hp]) fun k hk _ => ?_
  have hkp : k < p.length := by simpa [hp] using hk
  simp [singleBit_getElem, List.getElem?_eq_getElem hkp]

/-! ### The codec's operations -/

/-- VALIDATE is the test for 18 bytes of which the last is the checksum of the others (R76). -/
theorem validates_iff (bs : List Byte) :
    validates bs = true ↔ bs.length = 18 ∧ bs[17]? = some (crc8 (bs.take 17)) := by
  simp [validates]

/-- 18 bytes end in their checksum exactly when they have residue zero (R77 item 2). -/
theorem checksum_iff_residue {bs : List Byte} (h : bs.length = 18) :
    bs[17]? = some (crc8 (bs.take 17)) ↔ crc8 bs = 0x00#8 := by
  have hlast : bs = bs.take 17 ++ [bs[17]] := by
    rw [List.take_append_getElem, List.take_of_length_le h.le]
  calc bs[17]? = some (crc8 (bs.take 17))
      ↔ bs[17] = crc8 (bs.take 17) := by rw [List.getElem?_eq_getElem (by omega), Option.some_inj]
    _ ↔ crc8 (bs.take 17 ++ [bs[17]]) = 0x00#8 := (crc8_concat_eq_zero_iff _ _).symm
    _ ↔ crc8 bs = 0x00#8 := by rw [← hlast]

/-- BUILD completes with the packet it makes (R73). -/
theorem execBuild_of_build {bs : List Byte} {p : Packet} (h : buildPacket bs = some p) (s : State) :
    execBuild bs s = .next (s.reply (.packet p)) := by
  rw [execBuild, h]

end Sys2Proof.Machine

open Sys2Proof Sys2Proof.Machine

/-- Settles O9: a round is additive and has period 127, the rest follows. -/
theorem crcRoundLaws : Obligations.CrcRoundLaws :=
  ⟨fun c => ⟨crcRound_bit_zero c, crcRound_bits_high c⟩, crcRound_bijective, rfl, crcByte_eq_zero_iff,
    crcByte_xor 0x00#8 0x00#8, crcByte_eq_table, crcRounds_period⟩

/-- Settles O10: the laws of the fold from INIT = 0. -/
theorem crcMessageLaws : Obligations.CrcMessageLaws :=
  ⟨fun s => (crc8_concat_eq_zero_iff s _).2 rfl, crc8_zeros_append, fun _ _ => crc8_zipWith⟩

/-- Settles O11: the changed packet has another CRC-8 than the packet, which has zero. -/
theorem singleByteErrorsDetected : Obligations.SingleByteErrorsDetected := by
  intro p i b hlen hcrc hi hne hzero
  have hip : i < p.length := by omega
  have hb : b = p[i] := (crc8_set_eq_iff hip b).1 (hzero.trans hcrc.symm)
  exact hne (by rw [List.getElem?_eq_getElem hip, hb])

/-- Settles O12: the packet's own CRC-8 being zero, the errors escape when those of the two bits are equal. -/
theorem doubleBitErrorsEscapeAt127 : Obligations.DoubleBitErrorsEscapeAt127 := by
  intro p m n hlen hcrc hmn hn
  rw [flipBits_eq_zipWith hlen, crc8_zipWith (by simp [hlen]), crc8_zipWith (by simp [hlen]), hcrc, BitVec.zero_xor,
    BitVec.xor_eq_zero_iff, crc8_singleBit_eq_iff hmn.le hn]
  omega

/-- Settles O8: the checksum is the one byte of residue zero. -/
theorem crc8CompletesWithResidueByte : Obligations.Crc8CompletesWithResidueByte :=
  fun bs _ => ⟨crc8 bs, rfl, rfl, crc8_concat_eq_zero_iff bs, rfl⟩

/-- Settles O13: what BUILD makes is its body and the checksum of it. -/
theorem buildCompletesWellFormed : Obligations.BuildCompletesWellFormed := by
  intro bs s hlen
  have hb : buildPacket bs = some (mkPacket bs hlen) := buildPacket_of_le hlen
  have hbody : (mkPacket bs hlen).bytes.take 17 = packetBody bs := take_build hlen
  have hlast : (mkPacket bs hlen).bytes[17]? = some (crc8 ((mkPacket bs hlen).bytes.take 17)) := by
    rw [hbody]; exact last_build hlen
  exact ⟨mkPacket bs hlen, execBuild_of_build hb s, hbody, hlast, wf_build hb,
    (validates_iff _).2 ⟨(mkPacket bs hlen).size, hlast⟩, payloadOf_build hb, rfl⟩

/-- Settles O16: the checksum test is the residue test on 18 bytes. -/
theorem validateCompletes : Obligations.ValidateCompletes := by
  intro bs s
  exact ⟨validates bs, rfl, validates_iff bs,
    (validates_iff bs).trans (and_congr_right checksum_iff_residue), rfl⟩

/-- Settles O14: no packet is built, and the fault is raised. -/
theorem buildOfLongPayloadFaults : Obligations.BuildOfLongPayloadFaults :=
  fun _ _ hlong => ⟨buildPacket_of_lt hlong, execBuild_long hlong⟩

end

