-- ==== Sys2Proof/Proofs/Framer.lean ====
section
/-! SUPPORT. The proofs of the framer's statements (`spec/42_framer.md`): that a byte sequence is cut into packets in
one way only, that chunks received one after another are one chunk, when the queue overflows, and how a TAKE holds. -/

namespace Sys2Proof.Machine

/-! ### Room in the queue -/

theorem State.room_of_unbounded {s : State} (h : s.cfg.qdepth = none) (n : Nat) : s.room n :=
  fun d hd => absurd (h.symm.trans hd) (by simp)

theorem State.rxqFull_iff {s : State} {d : Nat} (hd : s.cfg.qdepth = some d) :
    s.rxqFull = true ↔ d ≤ s.rxq.length := by simp [State.rxqFull, hd]

/-! ### The framing law (R92) -/

theorem length_flatten_bytes (ps : List Packet) : (ps.map Packet.bytes).flatten.length = 18 * ps.length := by
  induction ps with
  | nil => rfl
  | cons p ps ih =>
    simp only [List.map_cons, List.flatten_cons, List.length_append, List.length_cons, p.size, ih]
    omega

/-- Whole packets and a rest of fewer than 18 bytes are determined by the bytes they hold together. -/
theorem framing_unique {ps qs : List Packet} {a b : List Byte} (ha : a.length < 18) (hb : b.length < 18)
    (h : (ps.map Packet.bytes).flatten ++ a = (qs.map Packet.bytes).flatten ++ b) : ps = qs ∧ a = b := by
  have hlen := congrArg List.length h
  simp only [List.length_append, length_flatten_bytes] at hlen
  induction ps generalizing qs with
  | nil =>
    obtain rfl : qs = [] := List.eq_nil_of_length_eq_zero (by simp at hlen; omega)
    exact ⟨rfl, h⟩
  | cons p ps ih =>
    cases qs with
    | nil => simp only [List.length_cons, List.length_nil] at hlen; omega
    | cons q qs =>
      simp only [List.map_cons, List.flatten_cons, List.append_assoc] at h
      obtain ⟨hhead, htail⟩ := List.append_inj h (p.size.trans q.size.symm)
      obtain ⟨rfl, rfl⟩ := ih htail (by simp only [List.length_cons] at hlen; omega)
      exact ⟨by rw [Packet.ext_bytes hhead], rfl⟩

/-- RXCHUNK with room appends the packets of the one framing of ACC and the chunk, and keeps its rest. -/
theorem receiveChunk_of_framing {chunk acc : List Byte} {ps : List Packet} {s : State}
    (hb : (ps.map Packet.bytes).flatten ++ acc = s.acc ++ chunk) (hacc : acc.length < 18) (hr : s.room ps.length) :
    receiveChunk chunk s = .next { s with acc := acc, rxq := s.rxq ++ ps } := by
  have hcount : (s.acc ++ chunk).length / 18 = ps.length := by
    rw [← hb, List.length_append, length_flatten_bytes]; omega
  obtain ⟨qs, -, hbytes, hnext⟩ := receiveChunk_of_room (chunk := chunk) (hcount ▸ hr)
  obtain ⟨rfl, hrest⟩ := framing_unique hacc (by rw [List.length_drop]; omega)
    (hb.trans (hbytes ▸ (List.take_append_drop _ _).symm))
  rw [hnext, ← hrest]

/-- RXCHUNK that answers a next state has framed ACC and the chunk. -/
theorem receiveChunk_framing {chunk : List Byte} {s t : State} (h : receiveChunk chunk s = .next t) :
    ∃ (ps : List Packet) (acc : List Byte), (ps.map Packet.bytes).flatten ++ acc = s.acc ++ chunk ∧
      acc.length < 18 ∧ t = { s with acc := acc, rxq := s.rxq ++ ps } := by
  obtain ⟨ps, -, hbytes, -, rfl⟩ := receiveChunk_next h
  exact ⟨ps, _, by rw [hbytes, List.take_append_drop], by rw [List.length_drop]; omega, rfl⟩

/-- With an unbounded queue RXCHUNK answers a next state, and so frames. -/
theorem receiveChunk_unbounded (chunk : List Byte) {s : State} (hq : s.cfg.qdepth = none) :
    ∃ (ps : List Packet) (acc : List Byte), (ps.map Packet.bytes).flatten ++ acc = s.acc ++ chunk ∧
      acc.length < 18 ∧ receiveChunk chunk s = .next { s with acc := acc, rxq := s.rxq ++ ps } := by
  obtain ⟨_, -, -, hnext⟩ := receiveChunk_of_room (chunk := chunk) (State.room_of_unbounded hq _)
  obtain ⟨ps, acc, hbytes, hshort, ht⟩ := receiveChunk_framing hnext
  exact ⟨ps, acc, hbytes, hshort, ht ▸ hnext⟩

/-- The chunk that completes 18 bytes queues them as one packet and leaves ACC empty (R91). -/
theorem receiveChunk_completes {chunk : List Byte} {s : State} (hlen : s.acc.length + chunk.length = 18)
    (hr : s.room 1) : ∃ q : Packet, q.bytes = s.acc ++ chunk ∧
      receiveChunk chunk s = .next { s with acc := [], rxq := s.rxq ++ [q] } :=
  ⟨⟨s.acc ++ chunk, by rw [List.length_append, hlen]⟩, rfl, receiveChunk_of_framing (by simp) (by simp) hr⟩

/-! ### Chunks one after another -/

/-- With an unbounded queue a second chunk does what it would have done as the end of the first. -/
theorem receiveChunk_append {c d : List Byte} {s t : State} (hq : s.cfg.qdepth = none)
    (h : receiveChunk c s = .next t) : receiveChunk d t = receiveChunk (c ++ d) s := by
  obtain ⟨ps, acc, hps, -, rfl⟩ := receiveChunk_framing h
  obtain ⟨qs, acc', hqs, hshort, hnext⟩ :=
    receiveChunk_unbounded d (s := { s with acc := acc, rxq := s.rxq ++ ps }) hq
  have hboth : ((ps ++ qs).map Packet.bytes).flatten ++ acc' = s.acc ++ (c ++ d) := by
    rw [List.map_append, List.flatten_append, List.append_assoc, hqs, ← List.append_assoc, hps, List.append_assoc]
  rw [hnext, receiveChunk_of_framing hboth hshort (State.room_of_unbounded hq _), List.append_assoc]

/-- With an unbounded queue the chunks of a list are one chunk (R92). -/
theorem receiveAll_eq_receiveChunk (cs : List (List Byte)) {s : State} (hacc : s.acc.length < 18)
    (hq : s.cfg.qdepth = none) : receiveAll cs s = receiveChunk cs.flatten s := by
  induction cs generalizing s with
  | nil =>
    rw [receiveChunk_of_framing (ps := []) (acc := s.acc) (by simp) hacc (State.room_of_unbounded hq _),
      List.append_nil]
    rfl
  | cons c cs ih =>
    obtain ⟨ps, acc, -, hshort, hnext⟩ := receiveChunk_unbounded c hq
    calc receiveAll (c :: cs) s
        = receiveAll cs { s with acc := acc, rxq := s.rxq ++ ps } := by
          simp only [receiveAll, exec, execRxchunk, hnext]
      _ = receiveChunk cs.flatten { s with acc := acc, rxq := s.rxq ++ ps } := ih hshort hq
      _ = receiveChunk (c :: cs).flatten s := receiveChunk_append hq hnext

/-! ### The full queue -/

/-- EMIT overflows exactly when it is enabled and the queue is full (R96). -/
theorem emitPacket_overflow_iff (s : State) :
    emitPacket s = .fault .queueOverflow ↔ s.rxqFull = true ∧ 18 ≤ s.acc.length := by
  constructor
  · intro h
    have hle : 18 ≤ s.acc.length := by
      by_contra hlt
      rw [emitPacket_of_lt (Nat.lt_of_not_le hlt)] at h
      cases h
    cases hfull : s.rxqFull with
    | true => exact ⟨rfl, hle⟩
    | false =>
      obtain ⟨p, -, hnext⟩ := emitPacket_of_le hle hfull
      rw [hnext] at h
      cases h
  · exact fun ⟨hfull, hle⟩ => emitPacket_full hle hfull

/-- RXCHUNK overflows exactly when ACC and the chunk hold more packets than there is room for (R96). -/
theorem receiveChunk_overflow_iff {chunk : List Byte} {s : State} {d : Nat} (hd : s.cfg.qdepth = some d)
    (hle : s.rxq.length ≤ d) :
    receiveChunk chunk s = .fault .queueOverflow ↔ d < s.rxq.length + (s.acc ++ chunk).length / 18 := by
  refine ⟨fun h => ?_, drain_overflow _ (s.withAcc (s.acc ++ chunk)) d hd hle (Nat.div_le_self _ _)⟩
  by_contra hfits
  have hroom : s.room ((s.acc ++ chunk).length / 18) := fun d' hd' => by
    obtain rfl : d = d' := Option.some.inj (hd.symm.trans hd')
    omega
  obtain ⟨_, -, -, hnext⟩ := receiveChunk_of_room hroom
  exact absurd (h.symm.trans hnext) (by simp)

/-! ### The host's turn in a receive -/

/-- With nothing scheduled and no whole packet in ACC, the step of a host in a receive is its poll of RXQ (R95). -/
theorem step_of_pend {s : State} {w : Pend} (hsch : s.schedule = []) (hacc : s.acc.length < 18)
    (hs : s.txs = .idle) (hp : s.pend = some w) : step s = poll s := by
  have hfetch : fetch s = hostTurn s := by
    simp only [fetch, hsch, autonomous, if_neg (Nat.not_le.2 hacc), hs]
  cases hq : s.rxq with
  | nil => simp only [step, hfetch, hostTurn, hs, hp, hq, poll_nil]
  | cons q rest =>
    calc step s
        = exec (decodeHostIn s.cfg.ops q) (s.withRxq rest) := by simp only [step, hfetch, hostTurn, hs, hp, hq]
      _ = consume q (s.withRxq rest) := exec_decodeHostIn q (s.withRxq rest)
      _ = poll s := (poll_cons hq).symm

/-- That step hands the head of RXQ to an outstanding TAKE (R94). -/
theorem step_of_pend_take {s : State} {q : Packet} {rest : List Packet} (hsch : s.schedule = [])
    (hacc : s.acc.length < 18) (hs : s.txs = .idle) (hp : s.pend = some .take) (hq : s.rxq = q :: rest) :
    step s = .next { s with rxq := rest, pend := none, rsp := some (.packet q) } :=
  calc step s
      = poll s := step_of_pend hsch hacc hs hp
    _ = consume q (s.withRxq rest) := poll_cons hq
    _ = _ := consume_take (s := s.withRxq rest) hs hp q

end Sys2Proof.Machine

open Sys2Proof Sys2Proof.Machine

/-- Settles O17: what the framer's loop does when there is room for every whole packet. -/
theorem rxchunkFramesByPosition : Obligations.RxchunkFramesByPosition :=
  fun _ _ hroom => receiveChunk_of_room hroom

/-- Settles O18: both cuttings are the one chunk they flatten to. -/
theorem chunkingIsInvisible : Obligations.ChunkingIsInvisible := by
  intro cs cs' s hacc hq hflat
  rw [receiveAll_eq_receiveChunk cs hacc hq, hflat, ← receiveAll_eq_receiveChunk cs' hacc hq]

/-- Settles O19: within QDEPTH, a full queue is one of exactly `d` packets. -/
theorem queueOverflowIsAFault : Obligations.QueueOverflowIsAFault := by
  intro chunk s d hd hle
  refine ⟨receiveChunk_overflow_iff hd hle, ?_⟩
  calc exec .emit s = .fault .queueOverflow
      ↔ s.rxqFull = true ∧ 18 ≤ s.acc.length := emitPacket_overflow_iff s
    _ ↔ s.rxq.length = d ∧ 18 ≤ s.acc.length := by rw [State.rxqFull_iff hd, hle.ge_iff_eq]

/-- Settles O20: EMIT's two cases. -/
theorem emitMovesEighteenBytes : Obligations.EmitMovesEighteenBytes :=
  fun _ => ⟨fun hle hroom => emitPacket_of_le hle (State.rxqFull_of_room hroom), emitPacket_of_lt⟩

/-- Settles O21: TAKE by a free host and by one that is not. -/
theorem takeReturnsOldest : Obligations.TakeReturnsOldest :=
  fun _ _ _ => ⟨issueReceive_take_cons, fun hwait => issueReceive_busy (by simp [hwait]), rfl⟩

/-- Settles O22: the outstanding TAKE polls an empty queue until a chunk completes the 18 bytes, then it is handed
their packet. -/
theorem takeHoldsUntilEmit : Obligations.TakeHoldsUntilEmit := by
  intro s hs hp hrxq hacc hsch
  have hissue : exec .take s = .next (s.suspend .take) := (issueReceive_free hs hp).trans (poll_nil hrxq)
  have hhold : step (s.suspend .take) = .next (s.suspend .take) :=
    (step_of_pend (s := s.suspend .take) hsch hacc hs rfl).trans (poll_nil hrxq)
  refine ⟨s.suspend .take, hissue, rfl, hhold, fun chunk hlen hroom => ?_⟩
  obtain ⟨q, hbytes, hchunk⟩ := receiveChunk_completes (s := s.suspend .take) hlen hroom
  refine ⟨q, _, hbytes, hchunk, ?_⟩
  calc step { s.suspend .take with acc := [], rxq := s.rxq ++ [q] }
      = .next { s with acc := [], rxq := [], pend := none, rsp := some (.packet q) } :=
        step_of_pend_take hsch (Nat.zero_lt_succ 17) hs rfl (by rw [hrxq]; rfl)
    _ = .next { s with acc := [], rsp := some (.packet q) } := by rw [← hp, ← hrxq]

end

