-- ==== Sys2Proof/Proofs/Retransmit.lean ====
section
/-! SUPPORT. The proofs of the retransmit controller's statements (`spec/43_retransmit.md`): what is refused during the
wait, what one WAITSTEP does with the head of RXQ, the trace of a TRANSMIT over packets queued and arriving, and which
agent an unscheduled step runs. -/

namespace Sys2Proof.Machine

/-! ### What the wait refuses -/

section
variable {s : State} (hs : s.txs = .wait)
include hs

/-- No TRANSMIT is issued while another is outstanding (R112). -/
theorem exec_transmit_wait {p : List Byte} (hp : p.length = 18) : exec (.transmit p) s = .refused .busy := by
  simp only [exec, execTransmit, toPacket_of_length hp]
  exact transmitPacket_busy (by simp [hs])

/-- No bytes are written while a TRANSMIT is outstanding (R112). -/
theorem writeRaw_wait (bs : List Byte) : writeRaw bs s = .refused .busy := writeRaw_busy (by simp [hs])

/-- The marker waits for the end of a TRANSMIT (R60, R112). -/
theorem hostMark_wait : hostMark s = .refused .busy := if_neg (by simp [hs])

/-- A SENDACKED that BUILD accepts waits for the end of the TRANSMIT before it (R60, R112). -/
theorem hostSend_wait {payload : List Byte} (hl : payload.length ≤ payloadMax) :
    hostSend payload s = .refused .busy := by
  simp [hostSend, buildPacket_of_le hl, hs]

/-- A receive of the host waits for the end of a TRANSMIT (R60, R112). -/
theorem hostReceive_wait (w : Pend) : hostReceive w s = .refused .busy := if_neg (by simp [hs])

end

/-- BUILD completes in every state, with its packet or with its fault (R73, R75). -/
theorem execBuild_completes (bs : List Byte) (s : State) : ∃ t, execBuild bs s = .next t := by
  rcases Nat.lt_or_ge payloadMax bs.length with hl | hl
  · exact ⟨_, execBuild_long hl⟩
  · exact ⟨_, execBuild_of_build (buildPacket_of_le hl) s⟩

/-! ### One WAITSTEP -/

/-- With no TRANSMIT outstanding WAITSTEP is not enabled (R106). -/
theorem exec_waitstep_idle {s : State} (hs : s.txs = .idle) : exec .waitstep s = .next s := by
  simp only [exec, execWaitstep, hs]

section
variable {s : State} (hs : s.txs = .wait)
include hs

/-- With nothing queued WAITSTEP is not enabled (R108). -/
theorem exec_waitstep_nil (hq : s.rxq = []) : exec .waitstep s = .next s := by
  simp only [exec, execWaitstep, hs, poll_nil hq]

variable {q : Packet} {rest : List Packet}

/-- The controller takes the head of the queue and acts on it (R106). -/
theorem exec_waitstep_controllerAct (hq : s.rxq = q :: rest) :
    exec .waitstep s = controllerAct q (s.withRxq rest) :=
  (exec_waitstep_cons hs hq).trans (consume_wait (s := s.withRxq rest) hs q)

/-- The ACK completes the TRANSMIT (R107). -/
theorem exec_waitstep_ack (hq : s.rxq = ackPkt :: rest) :
    exec .waitstep s = .next { s with rxq := rest, txs := .idle, rsp := some .done } :=
  (exec_waitstep_controllerAct hs hq).trans (controllerAct_ack _)

/-- A Retransmit-Request sends the packet in LAST again (R109). -/
theorem exec_waitstep_retx {p : Packet} (hq : s.rxq = retxPkt :: rest) (hl : s.last = some p) :
    exec .waitstep s = .next { s with rxq := rest, txlog := s.txlog ++ p.bytes } :=
  (exec_waitstep_controllerAct hs hq).trans (controllerAct_retx (s := s.withRxq rest) hl)

/-- Any other packet is lost (R116). -/
theorem exec_waitstep_other (ha : q ≠ ackPkt) (hr : q ≠ retxPkt) (hq : s.rxq = q :: rest) :
    exec .waitstep s = .next { s with rxq := rest } :=
  (exec_waitstep_controllerAct hs hq).trans (controllerAct_other ha hr _)

end

/-! ### The bytes sent again -/

/-- What is written when the packets `qs` are taken while `p` waits for its ACK: `p` once per Retransmit-Request
(R109, R110). -/
def resent (p : Packet) (qs : List Packet) : List Byte := (List.replicate (qs.count retxPkt) p.bytes).flatten

@[simp] theorem resent_nil (p : Packet) : resent p [] = [] := rfl

@[simp] theorem resent_retx (p : Packet) : resent p [retxPkt] = p.bytes := by simp [resent]

theorem resent_other {q : Packet} (hr : q ≠ retxPkt) (p : Packet) : resent p [q] = [] := by
  simp [resent, hr]

theorem resent_append (p : Packet) (qs rs : List Packet) : resent p (qs ++ rs) = resent p qs ++ resent p rs := by
  simp only [resent, List.count_append, List.replicate_add, List.flatten_append]

/-- A packet that is no ACK leaves the TRANSMIT outstanding, and the log grows by what it asks for (R106). -/
theorem exec_waitstep_of_ne_ack {s : State} {p q : Packet} {rest : List Packet} (hs : s.txs = .wait)
    (hl : s.last = some p) (hq : s.rxq = q :: rest) (ha : q ≠ ackPkt) :
    exec .waitstep s = .next { s with rxq := rest, txlog := s.txlog ++ resent p [q] } := by
  by_cases hr : q = retxPkt
  · subst hr
    rw [exec_waitstep_retx hs hq hl, resent_retx]
  · rw [exec_waitstep_other hs ha hr hq, resent_other hr, List.append_nil]

/-! ### Packets queued at issue -/

/-- A repetition goes on from where its first part ends. -/
theorem repeatInstr_add {i : Instr} {m : Nat} {s t : State} (n : Nat) (h : repeatInstr i m s = .next t) :
    repeatInstr i (m + n) s = repeatInstr i n t := by
  induction m generalizing s with
  | zero =>
    cases h
    rw [Nat.zero_add]
  | succ m ih =>
    rw [repeatInstr] at h
    rw [Nat.succ_add, repeatInstr]
    cases he : exec i s with
    | next s' =>
      rw [he] at h
      exact ih h
    | fault f => rw [he] at h; cases h
    | refused r => rw [he] at h; cases h

theorem repeatInstr_one (i : Instr) (s : State) : repeatInstr i 1 s = exec i s := by
  simp only [repeatInstr]
  cases exec i s <;> rfl

/-- WAITSTEPs over queued packets without an ACK (R110). -/
theorem repeatInstr_waitstep {s : State} {p : Packet} {qs rest : List Packet} (hs : s.txs = .wait)
    (hl : s.last = some p) (hq : s.rxq = qs ++ rest) (ha : ackPkt ∉ qs) :
    repeatInstr .waitstep qs.length s = .next { s with rxq := rest, txlog := s.txlog ++ resent p qs } := by
  induction qs generalizing s with
  | nil =>
    obtain rfl : s.rxq = rest := hq
    rw [resent_nil, List.append_nil]
    rfl
  | cons q qs ih =>
    have hstep := exec_waitstep_of_ne_ack (rest := qs ++ rest) hs hl hq (List.ne_of_not_mem_cons ha).symm
    calc repeatInstr .waitstep (qs.length + 1) s
        = repeatInstr .waitstep qs.length { s with rxq := qs ++ rest, txlog := s.txlog ++ resent p [q] } := by
          simp only [repeatInstr, hstep]
      _ = .next { s with rxq := rest, txlog := s.txlog ++ resent p [q] ++ resent p qs } :=
          ih hs hl rfl (List.not_mem_of_not_mem_cons ha)
      _ = .next { s with rxq := rest, txlog := s.txlog ++ resent p (q :: qs) } := by
          rw [List.append_assoc, ← resent_append, List.singleton_append]

/-- One WAITSTEP more, on the first ACK, completes the TRANSMIT (R107, R110). -/
theorem repeatInstr_waitstep_ack {s : State} {p : Packet} {qs rest : List Packet} (hs : s.txs = .wait)
    (hl : s.last = some p) (hq : s.rxq = qs ++ ackPkt :: rest) (ha : ackPkt ∉ qs) :
    repeatInstr .waitstep (qs.length + 1) s =
      .next { s with rxq := rest, txs := .idle, rsp := some .done, txlog := s.txlog ++ resent p qs } := by
  rw [repeatInstr_add 1 (repeatInstr_waitstep hs hl hq ha), repeatInstr_one]
  exact exec_waitstep_ack (s := { s with rxq := ackPkt :: rest, txlog := s.txlog ++ resent p qs }) hs rfl

/-! ### Packets arriving during the wait -/

/-- The state while the TRANSMIT of `p` that `s` issued is outstanding and the packets `qs` were taken. -/
def State.outstanding (s : State) (p : Packet) (qs : List Packet) (acc : List Byte) (rxq : List Packet) : State :=
  { s with
    acc := acc, rxq := rxq, last := some p, txs := .wait, rsp := none
    txlog := s.txlog ++ p.bytes ++ resent p qs }

/-- The state after that TRANSMIT has completed, the packets before the ACK being `qs`. -/
def State.completed (s : State) (p : Packet) (qs : List Packet) (acc : List Byte) (rxq : List Packet) : State :=
  { s.outstanding p qs acc rxq with txs := .idle, rsp := some .done }

theorem exec_transmit_outstanding {s : State} (p : Packet) (hs : s.txs = .idle) (hp : s.pend = none) :
    exec (.transmit p.bytes) s = .next (s.outstanding p [] s.acc s.rxq) := by
  rw [exec_transmit_bytes, transmitPacket_free hs hp, State.outstanding, resent_nil, List.append_nil]

theorem exec_waitstep_outstanding {s : State} {p q : Packet} {qs rest : List Packet} {acc : List Byte}
    (ha : q ≠ ackPkt) :
    exec .waitstep (s.outstanding p qs acc (q :: rest)) = .next (s.outstanding p (qs ++ [q]) acc rest) := by
  rw [exec_waitstep_of_ne_ack (s := s.outstanding p qs acc (q :: rest)) rfl rfl rfl ha]
  simp only [State.outstanding, resent_append, List.append_assoc]

/-- What has become of the TRANSMIT of `p` issued in `s`, once the packets `qs` were removed from RXQ: it is
outstanding while no ACK is among them, and completed by the first, which is then the last removed (R107, R110). -/
inductive State.Waited (s : State) (p : Packet) : List Packet → State → Prop
  | outstanding (qs : List Packet) (acc : List Byte) (rxq : List Packet) (ha : ackPkt ∉ qs) :
      s.Waited p qs (s.outstanding p qs acc rxq)
  | completed (qs : List Packet) (acc : List Byte) (rxq : List Packet) (ha : ackPkt ∉ qs) :
      s.Waited p (qs ++ [ackPkt]) (s.completed p qs acc rxq)

section
variable {s u : State} {p : Packet} {qs : List Packet}

theorem State.Waited.cfg (h : s.Waited p qs u) : u.cfg = s.cfg := by
  cases h <;> rfl

/-- The framer does not interfere with the TRANSMIT. -/
theorem State.Waited.framed (h : s.Waited p qs u) (acc : List Byte) (rxq : List Packet) :
    s.Waited p qs { u with acc := acc, rxq := rxq } := by
  cases h with
  | outstanding _ _ _ ha => exact .outstanding qs acc rxq ha
  | completed qs _ _ ha => exact .completed qs acc rxq ha

/-- A WAITSTEP removes nothing, or the head of RXQ, and the TRANSMIT stands as the packets removed say. -/
theorem State.Waited.waitstep (h : s.Waited p qs u) : ∃ v, exec .waitstep u = .next v ∧
    (v = u ∨ v.acc = u.acc ∧ ∃ q, u.rxq = q :: v.rxq ∧ s.Waited p (qs ++ [q]) v) := by
  cases h with
  | completed => exact ⟨_, exec_waitstep_idle rfl, .inl rfl⟩
  | outstanding _ acc rxq ha =>
    cases rxq with
    | nil => exact ⟨_, exec_waitstep_nil rfl rfl, .inl rfl⟩
    | cons q rest =>
      by_cases hq : q = ackPkt
      · subst hq
        exact ⟨_, exec_waitstep_ack rfl rfl, .inr ⟨rfl, ackPkt, rfl, .completed qs acc rest ha⟩⟩
      · refine ⟨_, exec_waitstep_outstanding hq, .inr ⟨rfl, q, rfl, .outstanding _ acc rest ?_⟩⟩
        simpa [ha] using Ne.symm hq

end

/-- The trace of the TRANSMIT of `p` issued in `s`, after the instructions `is`: the packets `qs` left RXQ at its head,
the packets `arrived` joined it at its tail, framed from the chunks, and each packet removed took a WAITSTEP (R110). -/
structure TransmitTrace (s : State) (p : Packet) (is : List Instr) (qs arrived : List Packet) (u : State) : Prop where
  queue : s.rxq ++ arrived = qs ++ u.rxq
  inbound : (arrived.map Packet.bytes).flatten ++ u.acc = s.acc ++ inboundBytes is
  steps : qs.length ≤ is.count .waitstep
  waited : s.Waited p qs u

theorem inboundBytes_append (is js : List Instr) : inboundBytes (is ++ js) = inboundBytes is ++ inboundBytes js := by
  induction is with
  | nil => rfl
  | cons i is ih =>
    cases i with
    | rxchunk chunk => simp only [List.cons_append, inboundBytes, ih, List.append_assoc]
    | _ => exact ih

section
variable {s u v : State} {p : Packet} {is : List Instr} {qs arrived : List Packet}

/-- The issue of a TRANSMIT begins its trace. -/
theorem TransmitTrace.issue (s : State) (p : Packet) :
    TransmitTrace s p [] [] [] (s.outstanding p [] s.acc s.rxq) where
  queue := by simp [State.outstanding]
  inbound := by simp [State.outstanding, inboundBytes]
  steps := Nat.le_refl 0
  waited := .outstanding [] _ _ List.not_mem_nil

/-- A WAITSTEP continues the trace. -/
theorem TransmitTrace.waitstep (h : TransmitTrace s p is qs arrived u) (hv : exec .waitstep u = .next v) :
    ∃ qs', TransmitTrace s p (is ++ [.waitstep]) qs' arrived v := by
  have hin : inboundBytes (is ++ [.waitstep]) = inboundBytes is := by simp [inboundBytes_append, inboundBytes]
  have hcount : (is ++ [Instr.waitstep]).count .waitstep = is.count .waitstep + 1 := by simp
  obtain ⟨v', hv', hstep⟩ := h.waited.waitstep
  obtain rfl : v' = v := Host.Outcome.next.inj (hv'.symm.trans hv)
  rcases hstep with rfl | ⟨hacc, q, hq, hwaited⟩
  · exact ⟨qs, h.queue, hin ▸ h.inbound, hcount ▸ Nat.le_succ_of_le h.steps, h.waited⟩
  · refine ⟨qs ++ [q], ?_, ?_, ?_, hwaited⟩
    · rw [h.queue, hq, List.append_assoc, List.singleton_append]
    · rw [hin, hacc, h.inbound]
    · rw [hcount, List.length_append, List.length_singleton]
      exact Nat.succ_le_succ h.steps

/-- A chunk that arrives continues the trace (R92, R112). -/
theorem TransmitTrace.rxchunk {chunk : List Byte} (h : TransmitTrace s p is qs arrived u)
    (hv : exec (.rxchunk chunk) u = .next v) :
    ∃ arrived', TransmitTrace s p (is ++ [.rxchunk chunk]) qs arrived' v := by
  obtain ⟨ps, acc, hbytes, -, rfl⟩ := receiveChunk_framing hv
  refine ⟨arrived ++ ps, ?_, ?_, ?_, h.waited.framed acc _⟩
  · rw [← List.append_assoc, h.queue, List.append_assoc]
  · rw [List.map_append, List.flatten_append, List.append_assoc, hbytes, ← List.append_assoc, h.inbound,
      List.append_assoc, inboundBytes_append]
    simp [inboundBytes]
  · rw [List.count_append]
    exact Nat.le_add_right_of_le h.steps

/-- Every instruction of the wait continues the trace. -/
theorem TransmitTrace.step {i : Instr} (h : TransmitTrace s p is qs arrived u) (hi : i.inWait = true)
    (hv : exec i u = .next v) : ∃ qs' arrived', TransmitTrace s p (is ++ [i]) qs' arrived' v := by
  cases i with
  | waitstep =>
    obtain ⟨qs', h'⟩ := h.waitstep hv
    exact ⟨qs', arrived, h'⟩
  | rxchunk chunk => exact ⟨qs, h.rxchunk hv⟩
  | _ => cases hi

/-- With an unbounded queue every instruction of the wait answers a next state. -/
theorem TransmitTrace.progress {i : Instr} (h : TransmitTrace s p is qs arrived u) (hq : s.cfg.qdepth = none)
    (hi : i.inWait = true) : ∃ v, exec i u = .next v := by
  cases i with
  | waitstep =>
    obtain ⟨v, hv, -⟩ := h.waited.waitstep
    exact ⟨v, hv⟩
  | rxchunk chunk =>
    obtain ⟨_, _, -, -, hv⟩ := receiveChunk_unbounded chunk (s := u) (by rw [h.waited.cfg, hq])
    exact ⟨_, hv⟩
  | _ => cases hi

/-- A mixture that answers a next state continues the trace. -/
theorem TransmitTrace.run {js : List Instr} (h : TransmitTrace s p is qs arrived u)
    (hjs : ∀ j ∈ js, j.inWait = true) (hv : runInstrs js u = .next v) :
    ∃ qs' arrived', TransmitTrace s p (is ++ js) qs' arrived' v := by
  induction js generalizing is qs arrived u with
  | nil =>
    cases hv
    exact ⟨qs, arrived, by rwa [List.append_nil]⟩
  | cons j js ih =>
    obtain ⟨hj, hjs⟩ := List.forall_mem_cons.1 hjs
    rw [runInstrs] at hv
    cases he : exec j u with
    | next u' =>
      rw [he] at hv
      obtain ⟨_, _, h'⟩ := h.step hj he
      rw [List.append_cons]
      exact ih h' hjs hv
    | fault f => rw [he] at hv; cases hv
    | refused r => rw [he] at hv; cases hv

/-- With an unbounded queue every mixture answers a next state. -/
theorem TransmitTrace.runs {js : List Instr} (h : TransmitTrace s p is qs arrived u) (hq : s.cfg.qdepth = none)
    (hjs : ∀ j ∈ js, j.inWait = true) : ∃ v, runInstrs js u = .next v := by
  induction js generalizing is qs arrived u with
  | nil => exact ⟨u, rfl⟩
  | cons j js ih =>
    obtain ⟨hj, hjs⟩ := List.forall_mem_cons.1 hjs
    obtain ⟨u', he⟩ := h.progress hq hj
    obtain ⟨_, _, h'⟩ := h.step hj he
    rw [runInstrs, he]
    exact ih h' hjs

end

/-! ### The unscheduled step -/

section
variable {s : State} (hsch : s.schedule = []) (hacc : s.acc.length < 18)
include hsch hacc

/-- While a TRANSMIT is outstanding an unscheduled step is the controller's, which holds on an empty queue
(R108, R187). -/
theorem step_of_wait (hs : s.txs = .wait) : step s = exec .waitstep s := by
  have hauto : fetch s = if s.rxqNonempty then .run .waitstep s else .stay s := by
    simp only [fetch, hsch, autonomous, if_neg (Nat.not_le.2 hacc), hs]
  cases hq : s.rxq with
  | nil =>
    have hfetch : fetch s = .stay s := by simp [hauto, State.rxqNonempty, hq]
    rw [exec_waitstep_nil hs hq, step, hfetch]
  | cons q rest => exact step_of_run (by simp [hauto, State.rxqNonempty, hq])

/-- An unscheduled step of a free host is the next operation of its session (R125). -/
theorem step_of_sessionNext {op : SessionOp} (hs : s.txs = .idle) (hp : s.pend = none) (hph : s.phase ≠ .sending)
    (hn : s.sessionNext = some op) : step s = exec (sessionInstr s op) s := by
  refine step_of_run ?_
  simp only [fetch, hsch, autonomous, if_neg (Nat.not_le.2 hacc), hs, hostTurn, hp, if_neg hph, hn]

end

end Sys2Proof.Machine

open Sys2Proof Sys2Proof.Machine

/-- Settles O27: for packets queued at issue by the WAITSTEPs over them, for arriving chunks by the trace that every
instruction of the wait continues. -/
theorem transmitTraceLaw : Obligations.TransmitTraceLaw := by
  intro s p hs hp
  have hissue := exec_transmit_outstanding p hs hp
  refine ⟨fun qs rest ha => ⟨fun hq => ?queued, fun hq => ?acked⟩, fun is his => ?arriving⟩
  case queued =>
    refine ⟨_, _, hissue, repeatInstr_waitstep rfl rfl hq ha, ?_⟩
    simp [State.outstanding, resent]
  case acked =>
    refine ⟨_, _, hissue, repeatInstr_waitstep_ack rfl rfl hq ha, ?_⟩
    simp [State.outstanding, resent]
  case arriving =>
    have hrun : runInstrs (.transmit p.bytes :: is) s = runInstrs is (s.outstanding p [] s.acc s.rxq) := by
      rw [runInstrs, hissue]
    have hbegun := TransmitTrace.issue s p
    refine ⟨fun hq => hrun ▸ hbegun.runs hq his, fun u hu => ?_⟩
    obtain ⟨qs, arrived, htrace⟩ := hbegun.run his (hrun ▸ hu)
    obtain ⟨hqueue, hinbound, hsteps, hwaited⟩ := htrace
    refine ⟨qs, arrived, hqueue, hinbound, hsteps, ?_⟩
    cases hwaited with
    | outstanding _ acc rxq ha => exact .inl ⟨ha, rfl⟩
    | completed qs acc rxq ha => exact .inr ⟨qs, rfl, ha, rfl⟩

/-- Settles O25: one WAITSTEP per class. -/
theorem waitstepActsOnClass : Obligations.WaitstepActsOnClass := by
  intro s q p rest hs hq hl
  split
  case isTrue hack => exact exec_waitstep_ack hs (hack ▸ hq)
  case isFalse hack =>
    split
    case isTrue hretx => exact exec_waitstep_retx hs (hretx ▸ hq) hl
    case isFalse hretx => exact exec_waitstep_other hs hack hretx hq

/-- Settles O23: each issue is one of the controller's or the host's operations, which ask for a free host, and the
pure operations and the framer do not. -/
theorem issueRefusedWhileWaiting : Obligations.IssueRefusedWhileWaiting := by
  intro s p bs payload op len hs hp hl
  have hsend : ∀ payload : List Byte, payload.length ≤ 16 → hostSend payload s = .refused .busy :=
    fun _ => hostSend_wait hs
  refine ⟨exec_transmit_wait hs hp, issueReceive_busy (by simp [hs]), writeRaw_wait hs bs, hostMark_wait hs,
    hostMark_wait hs, hsend payload hl, hsend payload hl, hsend [_] ?_, hsend (deviceIdPayload _) ?_,
    hsend (fwLengthPayload _ len) ?_, hostReceive_wait hs _, hostReceive_wait hs _, ⟨_, rfl⟩,
    execBuild_completes bs s, ⟨_, rfl⟩, fun hq => ?_⟩
  · simp
  · simp [deviceIdPayload]
  · simp [fwLengthPayload, be32]
  · obtain ⟨_, _, -, -, hnext⟩ := receiveChunk_unbounded bs hq
    exact ⟨_, hnext⟩

/-- Settles O24: TRANSMIT by a free host, by one that waits, and of what is no packet. -/
theorem transmitIssues : Obligations.TransmitIssues := by
  intro s p
  refine ⟨fun hlen hs hpend => ?_, fun hlen hs => exec_transmit_wait hs hlen, decodeCmd_transmit, fun hlen => ?_⟩
  · rw [← transmitPacket_free (p := ⟨p, hlen⟩) hs hpend]
    exact exec_transmit_bytes ⟨p, hlen⟩ s
  · simp only [exec, execTransmit, toPacket_of_ne hlen]

/-- Settles O28: the controller's hold is the whole step. -/
theorem controllerHoldsOnEmptyQueue : Obligations.ControllerHoldsOnEmptyQueue := by
  intro s hs hq
  have hhold := exec_waitstep_nil hs hq
  exact ⟨hhold, fun hsch hacc => ⟨hsch, (step_of_wait hsch hacc hs).trans hhold⟩⟩

/-- Settles O29: WRITERAW by a free host and by one that waits. -/
theorem writerawAppends : Obligations.WriterawAppends :=
  fun _ bs => ⟨writeRaw_free, fun hs => writeRaw_wait hs bs, rfl⟩

/-- Settles O50: the agents in the order of their turns. -/
theorem stepRunsEnabledAgent : Obligations.StepRunsEnabledAgent := by
  intro s hsch hacc
  refine ⟨step_of_wait hsch hacc, fun w hs hp hq => ?hold, fun w q rest hs hp hq => ?receive,
    fun op => step_of_sessionNext hsch hacc⟩
  case hold => rw [step_of_pend hsch hacc hs hp, poll_nil hq]
  case receive =>
    calc step s
        = poll s := step_of_pend hsch hacc hs hp
      _ = consume q (s.withRxq rest) := poll_cons hq
      _ = exec (decodeHostIn s.cfg.ops q) (s.withRxq rest) := (exec_decodeHostIn q (s.withRxq rest)).symm

end

