-- ==== Sys2Proof/Proofs/HostSequencer.lean ====
section
/-! SUPPORT. The proofs of the host's statements (`spec/44_host_sequencer.md`): what the session's own sends and
receives do, how the host acts on a completed TRANSMIT, and the run of a whole session, point by point. -/

namespace Sys2Proof.Machine

/-! ### What a session issues next -/

section
variable {s : State}

/-- A session whose TRANSMIT is outstanding issues nothing (R127). -/
theorem State.ne_sending_of_sessionNext {op : SessionOp} (h : s.sessionNext = some op) : s.phase ≠ .sending := by
  intro hph
  simp [State.sessionNext, hph] at h

/-- A session that is over issues nothing (R143). -/
theorem State.hst_of_sessionNext {op : SessionOp} (h : s.sessionNext = some op) :
    s.hst ≠ .done ∧ s.hst ≠ .failed := by
  refine ⟨fun hst => ?_, fun hst => ?_⟩ <;> cases hph : s.phase <;> simp [State.sessionNext, hst, hph] at h

/-- The four payloads of a session, each with the state that sends it (R131, R133, R135, R137). -/
theorem State.payload_of_sessionNext {payload : List Byte} (h : s.sessionNext = some (.send payload)) :
    (s.hst = .waitForUpdateRes ∧ payload = [s.cfg.ops.updateRes]) ∨
    (s.hst = .deviceIdRes ∧ payload = deviceIdPayload s.cfg.ops) ∨
    (s.hst = .fwLengthRes ∧ payload = fwLengthPayload s.cfg.ops (BitVec.ofNat 32 s.fw.length)) ∨
    (s.hst = .receiveFirmware ∧ payload = fwChunkAt s.fw s.off) := by
  unfold State.sessionNext at h
  split at h <;> simp_all

/-- A chunk is what the image holds from OFF on, 16 bytes at most (R137, R138). -/
theorem fwChunkAt_length (fw : List Byte) (off : Nat) : (fwChunkAt fw off).length = min 16 (fw.length - off) := by
  simp [fwChunkAt, payloadMax]

theorem fwChunkAt_getElem? {fw : List Byte} {off k : Nat} (hk : k < (fwChunkAt fw off).length) :
    (fwChunkAt fw off)[k]? = fw[off + k]? := by
  rw [fwChunkAt_length] at hk
  rw [fwChunkAt, List.getElem?_take_of_lt (by simp only [payloadMax]; omega), List.getElem?_drop]

/-- BUILD accepts every payload of a session (R138). -/
theorem State.payload_le_of_sessionNext {payload : List Byte} (h : s.sessionNext = some (.send payload)) :
    payload.length ≤ payloadMax := by
  rcases State.payload_of_sessionNext h with ⟨-, rfl⟩ | ⟨-, rfl⟩ | ⟨-, rfl⟩ | ⟨-, rfl⟩
  · simp [payloadMax]
  · simp [deviceIdPayload, payloadMax]
  · simp [fwLengthPayload, be32, payloadMax]
  · rw [fwChunkAt_length]
    exact Nat.min_le_left ..

theorem State.packet_of_sessionNext {payload : List Byte} (h : s.sessionNext = some (.send payload)) :
    ∃ p, buildPacket payload = some p := ⟨_, buildPacket_of_le (State.payload_le_of_sessionNext h)⟩

/-- The outbound rows of a session are SENDACKEDs of its payloads (R56, R127). -/
theorem exec_sessionInstr_send {payload : List Byte} (h : s.sessionNext = some (.send payload)) :
    exec (sessionInstr s (.send payload)) s = hostSend payload s := by
  rcases State.payload_of_sessionNext h with ⟨hst, rfl⟩ | ⟨hst, rfl⟩ | ⟨hst, rfl⟩ | ⟨hst, rfl⟩ <;>
    simp only [sessionInstr, hst] <;> rfl

/-- A session's receive is an AWAIT or an EXPECT, never a plain TAKE (R126, R128). -/
theorem exec_sessionInstr_receive {w : Pend} (h : s.sessionNext = some (.receive w)) :
    exec (sessionInstr s (.receive w)) s = hostReceive w s := by
  cases w with
  | take => exact absurd (State.awaited_of_sessionNext_receive h) s.awaited_ne_take
  | await op => rfl
  | expect op => rfl

/-! ### The session's sends and receives, of a free host -/

section
variable (hs : s.txs = .idle) (hp : s.pend = none)
include hs hp

/-- The session's SENDACKED issues its TRANSMIT (R105, R127). -/
theorem hostSend_session {payload : List Byte} {p : Packet} (hb : buildPacket payload = some p)
    (hn : s.sessionNext = some (.send payload)) :
    hostSend payload s = .next { s with
      txlog := s.txlog ++ p.bytes, last := some p, txs := .wait, rsp := none, phase := .sending } := by
  rw [hostSend_free hb hs hp, State.begin_of_next (State.ne_sending_of_sessionNext hn) hn]
  exact transmitPacket_free hs hp

/-- The session's AWAIT or EXPECT is outstanding and polls RXQ (R126, R128). -/
theorem hostReceive_session {w : Pend} (hn : s.sessionNext = some (.receive w)) :
    hostReceive w s = poll ((s.withPhase .waiting).suspend w) := by
  rw [hostReceive_free hs hp, State.begin_of_next (State.ne_sending_of_sessionNext hn) hn]
  exact issueReceive_free hs hp

end

/-! ### The packet that a receive takes -/

theorem State.received_waiting (hph : s.phase = .waiting) (matched : Bool) :
    s.received matched = s.enter (if matched then afterReceive s.hst else .failed) := if_pos hph

section
variable (hs : s.txs = .idle) (hph : s.phase = .waiting)
include hs hph

/-- The packet its AWAIT waits for moves the host on (R126). -/
theorem consume_awaited {op : Byte} (hp : s.pend = some (.await op)) :
    consume (opPacket op) s = .next ((s.release .done).enter (afterReceive s.hst)) := by
  rw [consume_idle hs hp, hostAct_await_self, State.received_waiting (s := s.release .done) hph]
  rfl

/-- The packet its EXPECT waits for moves the host on (R128, R137). -/
theorem consume_expected {op : Byte} (hp : s.pend = some (.expect op)) :
    consume (opPacket op) s = .next ((s.release .ok).enter (afterReceive s.hst)) := by
  rw [consume_idle hs hp, hostAct_expect_self, State.received_waiting (s := s.release .ok) hph]
  rfl

/-- Any other packet fails the session at its EXPECT (R139). -/
theorem consume_unexpected {op : Byte} {q : Packet} (hp : s.pend = some (.expect op)) (hq : q ≠ opPacket op) :
    consume q s = .next ((s.release .mismatch).enter .failed) := by
  rw [consume_idle hs hp, hostAct_expect_ne hq, State.received_waiting (s := s.release .mismatch) hph]
  rfl

/-- The packet of its AWAIT takes the host from state `h` to the next state of the table, which is reported
(R126, R141). -/
theorem consume_awaited_moves {op : Byte} {h h' : HostState} (hst : s.hst = h) (hp : s.pend = some (.await op))
    (hnext : afterReceive h = h') (hne : h' ≠ h) :
    consume (opPacket op) s = .next { s with
      pend := none, rsp := some .done, phase := .ready, hst := h', reports := s.reports ++ [.moved h'] } := by
  rw [consume_awaited hs hph hp, hst, hnext, State.enter, if_neg (hst ▸ hne)]
  rfl

end

/-! ### Acting on a completed TRANSMIT -/

/-- After Update-Response (R131). -/
theorem State.sent_updateRes (hst : s.hst = .waitForUpdateRes) : s.sent = s.enter .deviceIdReq := by
  simp only [State.sent, hst]

/-- After Device-ID-Response (R133). -/
theorem State.sent_deviceIdRes (hst : s.hst = .deviceIdRes) : s.sent = s.enter .fwLengthReq := by
  simp only [State.sent, hst]

/-- After Firmware-Length-Response (R135). -/
theorem State.sent_fwLengthRes (hst : s.hst = .fwLengthRes) : s.sent = s.enter .eraseApplication := by
  simp only [State.sent, hst]

/-- After a chunk but the last: 16 bytes less remain, and the check for Ready-For-Data is next (R137). -/
theorem State.sent_chunk_more (hst : s.hst = .receiveFirmware) (hmore : s.off + 16 < s.fw.length) :
    s.sent = (s.withOff (s.off + 16)).withPhase .acked := by
  have hlen : (fwChunkAt s.fw s.off).length = 16 := by rw [fwChunkAt_length]; omega
  simp only [State.sent, hst, hlen, if_pos hmore]

/-- After the last chunk: nothing remains, and the host awaits Update-Success (R137). -/
theorem State.sent_chunk_last (hst : s.hst = .receiveFirmware) (hoff : s.off ≤ s.fw.length)
    (hlast : s.fw.length ≤ s.off + 16) : s.sent = (s.withOff s.fw.length).enter .updateSuccess := by
  have hlen : s.off + (fwChunkAt s.fw s.off).length = s.fw.length := by rw [fwChunkAt_length]; omega
  simp only [State.sent, hst, hlen, lt_irrefl, if_false]

/-- A transition of the host is reported (R141). -/
theorem State.enter_ne {h : HostState} (hne : h ≠ s.hst) :
    s.enter h = { s with hst := h, phase := .ready, reports := s.reports ++ [.moved h] } := by
  rw [State.enter, if_neg hne]

/-- Going on in the same state is no transition (R137). -/
theorem State.enter_self : s.enter s.hst = s.withPhase .ready := by
  rw [State.enter, if_pos rfl]
  rfl

end

/-! ### The steps of a session -/

section
variable {s : State} (hsch : s.schedule = []) (hacc : s.acc.length < 18) (hs : s.txs = .idle) (hp : s.pend = none)
include hsch hacc hs hp

/-- A free host's unscheduled step acts on its completed TRANSMIT (R107, R127). -/
theorem step_of_sending (hph : s.phase = .sending) : step s = .next s.sent := by
  have hfetch : fetch s = .stay s.settle := by
    simp only [fetch, hsch, autonomous, if_neg (Nat.not_le.2 hacc), hs, hostTurn, hp, if_pos hph]
  rw [step, hfetch, State.settle, if_pos ⟨hph, hs⟩]

/-- The marker as a session's step (R129). -/
theorem step_of_mark (hn : s.sessionNext = some .mark) :
    step s = .next { s with txlog := s.txlog ++ syncMarker, rsp := some .done, phase := .marked } := by
  calc step s
      = hostMark s := step_of_sessionNext hsch hacc hs hp (State.ne_sending_of_sessionNext hn) hn
    _ = .next { s.begin .mark .marked with txlog := s.txlog ++ syncMarker, rsp := some .done } := hostMark_idle hs hp
    _ = _ := by rw [State.begin_of_next (State.ne_sending_of_sessionNext hn) hn]; rfl

/-- A SENDACKED as a session's step (R127). -/
theorem step_of_send {payload : List Byte} {p : Packet} (hb : buildPacket payload = some p)
    (hn : s.sessionNext = some (.send payload)) :
    step s = .next { s with
      txlog := s.txlog ++ p.bytes, last := some p, txs := .wait, rsp := none, phase := .sending } := by
  rw [step_of_sessionNext hsch hacc hs hp (State.ne_sending_of_sessionNext hn) hn, exec_sessionInstr_send hn]
  exact hostSend_session hs hp hb hn

/-- A receive as a session's step, its packet being queued: the host takes it and moves on (R126, R128). -/
theorem step_of_receive {w : Pend} {op : Byte} {rest : List Packet} (hn : s.sessionNext = some (.receive w))
    (hw : w = .await op ∨ w = .expect op) (hq : s.rxq = opPacket op :: rest) :
    ∃ r, step s = .next ({ s with rxq := rest, pend := none, rsp := some r }.enter (afterReceive s.hst)) := by
  have htake : step s = consume (opPacket op) (((s.withPhase .waiting).suspend w).withRxq rest) := by
    rw [step_of_sessionNext hsch hacc hs hp (State.ne_sending_of_sessionNext hn) hn, exec_sessionInstr_receive hn,
      hostReceive_session hs hp hn]
    exact poll_cons hq
  rcases hw with rfl | rfl
  · exact ⟨.done, htake.trans (consume_awaited (s := ((s.withPhase .waiting).suspend _).withRxq rest) hs rfl rfl)⟩
  · exact ⟨.ok, htake.trans (consume_expected (s := ((s.withPhase .waiting).suspend _).withRxq rest) hs rfl rfl)⟩

end

/-! ### The start of a session -/

section
variable {s : State} {fw : List Byte}

/-- A scheduled start is the step (R125). -/
theorem step_of_start {es : List Event} (hsch : s.schedule = .start fw :: es) :
    step s = startSession fw (s.withSchedule es) := by
  simp only [step, fetch, hsch, fetchStart]
  cases hstart : startSession fw (s.withSchedule es) with
  | next s' => rfl
  | fault f => exact absurd hstart (startSession_ne_fault _ _ f)
  | refused r => rfl

/-- No second session since reset (log entry 15). -/
theorem startSession_running (hph : s.phase ≠ .unstarted) : startSession fw s = .refused .sessionRunning := if_pos hph

/-- No session is started by a host that is not free (log entry 15). -/
theorem startSession_busy (hph : s.phase = .unstarted) (hs : s.txs = .wait ∨ s.pend ≠ none) :
    startSession fw s = .refused .busy := by
  have hbusy : ¬ s.free = true := by
    rw [State.free_iff]
    rintro ⟨hidle, hpend⟩
    rcases hs with hwait | hne
    · exact absurd (hwait.symm.trans hidle) (by decide)
    · exact hne hpend
  rw [startSession, if_neg (not_not_intro hph), if_pos hbusy]

section
variable (hph : s.phase = .unstarted) (hs : s.txs = .idle) (hp : s.pend = none)
include hph hs hp

/-- A free host starts a session with an image in the domain (R125, R142). -/
theorem startSession_free (hfw : 1 ≤ fw.length ∧ fw.length < 2 ^ 32) :
    startSession fw s = .next { s with fw := fw, hst := .sync, off := 0, phase := .ready } := by
  rw [startSession, if_neg (not_not_intro hph), if_neg (not_not_intro (State.free_of hs hp)), if_pos hfw]

/-- A free host refuses an image outside the domain (R142). -/
theorem startSession_domain (hfw : ¬ (1 ≤ fw.length ∧ fw.length < 2 ^ 32)) :
    startSession fw s = .refused (.firmwareDomain fw.length) := by
  rw [startSession, if_neg (not_not_intro hph), if_neg (not_not_intro (State.free_of hs hp)), if_neg hfw]

end

end

/-! ### Runs of the machine -/

/-- A run goes on from where its first part ends. -/
theorem runSteps_add {m : Nat} {s t : State} (n : Nat) (h : runSteps m s = .next t) :
    runSteps (m + n) s = runSteps n t := by
  induction m generalizing s with
  | zero =>
    cases h
    rw [Nat.zero_add]
  | succ m ih =>
    rw [runSteps] at h
    rw [Nat.succ_add, runSteps]
    cases he : step s with
    | next s' =>
      rw [he] at h
      exact ih h
    | fault f => rw [he] at h; cases h
    | refused r => rw [he] at h; cases h

theorem runSteps_one (s : State) : runSteps 1 s = step s := by
  simp only [runSteps]
  cases step s <;> rfl

/-- Left alone, the controller takes the queued packets up to the first ACK (R107, R110). -/
theorem runSteps_wait {s : State} {p : Packet} {qs rest : List Packet} (hsch : s.schedule = [])
    (hacc : s.acc.length < 18) (hs : s.txs = .wait) (hl : s.last = some p) (hq : s.rxq = qs ++ ackPkt :: rest)
    (ha : ackPkt ∉ qs) : runSteps (qs.length + 1) s =
      .next { s with rxq := rest, txs := .idle, rsp := some .done, txlog := s.txlog ++ resent p qs } := by
  induction qs generalizing s with
  | nil =>
    rw [List.length_nil, Nat.zero_add, runSteps_one, step_of_wait hsch hacc hs, exec_waitstep_ack hs hq, resent_nil,
      List.append_nil]
  | cons q qs ih =>
    have hstep : step s = .next { s with rxq := qs ++ ackPkt :: rest, txlog := s.txlog ++ resent p [q] } :=
      (step_of_wait hsch hacc hs).trans (exec_waitstep_of_ne_ack hs hl hq (List.ne_of_not_mem_cons ha).symm)
    calc runSteps (qs.length + 1 + 1) s
        = runSteps (qs.length + 1) { s with rxq := qs ++ ackPkt :: rest, txlog := s.txlog ++ resent p [q] } := by
          rw [runSteps, hstep]
      _ = .next { s with
            rxq := rest, txs := .idle, rsp := some .done, txlog := s.txlog ++ resent p [q] ++ resent p qs } :=
          ih hsch hacc hs hl rfl (List.not_mem_of_not_mem_cons ha)
      _ = .next { s with
            rxq := rest, txs := .idle, rsp := some .done, txlog := s.txlog ++ resent p (q :: qs) } := by
          rw [List.append_assoc, ← resent_append, List.singleton_append]

/-- What a SENDACKED of a session writes, answered by `ackReplies`: BUILD's bytes, and again per request (R110). -/
theorem copies_eq_resent {payload : List Byte} {p : Packet} (hb : buildPacket payload = some p) (r : Nat → Nat)
    (k : Nat) : copies r k payload = p.bytes ++ resent p (List.replicate (r k) retxPkt) := by
  obtain ⟨-, hbytes⟩ := buildPacket_eq_some.1 hb
  simp [copies, resent, List.replicate_add, hbytes]

/-! ### The points of a session -/

/-- A point of a session: the host's state, phase and offset, the bytes written since the session started, and the
packets still queued. -/
structure SessionPoint where
  hst : HostState
  phase : Phase
  off : Nat
  sent : List Byte
  queue : List Packet

/-- The state at the point `c` of the session with image `fw` that started in `s`: a free host with nothing scheduled.
The completion `r`, the packet `l` in LAST and the session's reports `rs` are what a point leaves open. -/
def State.atPoint (s : State) (fw : List Byte) (c : SessionPoint) (r : Option Reply) (l : Option Packet)
    (rs : List Report) : State :=
  { s with
    fw := fw, schedule := [], txs := .idle, pend := none, hst := c.hst, phase := c.phase, off := c.off
    txlog := s.txlog ++ c.sent, rxq := c.queue, rsp := r, last := l, reports := s.reports ++ rs }

/-- The reports `rs` of a session signal its end as often as it has come to it: the success and the failure once in
`done` and in `failed`, and never before (R141, R143). -/
def OutcomeReported (h : HostState) (rs : List Report) : Prop :=
  rs.count (.moved .done) = (if h = .done then 1 else 0) ∧ rs.count (.moved .failed) = (if h = .failed then 1 else 0)

/-- The reports after the transition from `h` to `h'` (R141). -/
def reportMove (h h' : HostState) (rs : List Report) : List Report := if h' = h then rs else rs ++ [.moved h']

/-- A transition out of a state that is no end reports an end exactly where it comes to one. -/
theorem OutcomeReported.move {h : HostState} {rs : List Report} (hr : OutcomeReported h rs)
    (hlive : h ≠ .done ∧ h ≠ .failed) (h' : HostState) : OutcomeReported h' (reportMove h h' rs) := by
  obtain ⟨hd, hf⟩ := hr
  rw [if_neg hlive.1] at hd
  rw [if_neg hlive.2] at hf
  unfold reportMove
  split
  case isTrue hh =>
    subst hh
    exact ⟨hd.trans (if_neg hlive.1).symm, hf.trans (if_neg hlive.2).symm⟩
  case isFalse => simp [OutcomeReported, List.count_append, List.count_singleton, hd, hf]

/-- The bytes that remain are no end. -/
theorem OutcomeReported.remaining {h : HostState} {rs : List Report} (hr : OutcomeReported h rs) (n : Nat) :
    OutcomeReported h (rs ++ [.remaining n]) := by
  simpa [OutcomeReported, List.count_append] using hr

theorem State.atPoint_enter (s : State) (fw : List Byte) (c : SessionPoint) (r : Option Reply) (l : Option Packet)
    (rs : List Report) (h : HostState) : (s.atPoint fw c r l rs).enter h =
      s.atPoint fw { c with hst := h, phase := .ready } r l (reportMove c.hst h rs) := by
  by_cases hh : h = c.hst
  · rw [reportMove, if_pos hh]
    subst hh
    exact State.enter_self (s := s.atPoint fw c r l rs)
  · rw [reportMove, if_neg hh, State.enter_ne (s := s.atPoint fw c r l rs) hh]
    simp only [State.atPoint, List.append_assoc]

theorem State.atPoint_withOff (s : State) (fw : List Byte) (c : SessionPoint) (r : Option Reply) (l : Option Packet)
    (rs : List Report) (n : Nat) : (s.atPoint fw c r l rs).withOff n =
      s.atPoint fw { c with off := n } r l (rs ++ [.remaining (fw.length - n)]) := by
  simp only [State.withOff, State.atPoint, List.append_assoc]

/-- A run from `s` comes to the point `c` of a session with image `fw`, with the outcomes reported that it had. -/
def SessionReaches (s : State) (fw : List Byte) (c : SessionPoint) : Prop :=
  ∃ n r l rs, runSteps n s = .next (s.atPoint fw c r l rs) ∧ OutcomeReported c.hst rs

section
variable {s : State} {fw sent : List Byte} {h h' : HostState} {ph : Phase} {off : Nat} {q : List Packet}

/-- A run that goes on from point to point. -/
theorem SessionReaches.run {c c' : SessionPoint} (hc : SessionReaches s fw c)
    (hrun : ∀ r l rs, OutcomeReported c.hst rs → ∃ n r' l' rs',
      runSteps n (s.atPoint fw c r l rs) = .next (s.atPoint fw c' r' l' rs') ∧ OutcomeReported c'.hst rs') :
    SessionReaches s fw c' := by
  obtain ⟨m, r, l, rs, hm, hrep⟩ := hc
  obtain ⟨n, r', l', rs', hn, hrep'⟩ := hrun r l rs hrep
  exact ⟨m + n, r', l', rs', (runSteps_add n hm).trans hn, hrep'⟩

/-- A step from point to point. -/
theorem SessionReaches.step {c c' : SessionPoint} (hc : SessionReaches s fw c)
    (hstep : ∀ r l rs, OutcomeReported c.hst rs → ∃ r' l' rs',
      Machine.step (s.atPoint fw c r l rs) = .next (s.atPoint fw c' r' l' rs') ∧ OutcomeReported c'.hst rs') :
    SessionReaches s fw c' :=
  hc.run fun r l rs hrep =>
    let ⟨r', l', rs', hnext, hrep'⟩ := hstep r l rs hrep
    ⟨1, r', l', rs', (runSteps_one _).trans hnext, hrep'⟩

/-- A free host's session starts in Sync, with nothing written (R125). -/
theorem SessionReaches.start (hsch : s.schedule = [.start fw]) (hph : s.phase = .unstarted) (hs : s.txs = .idle)
    (hp : s.pend = none) (hfw : 1 ≤ fw.length ∧ fw.length < 2 ^ 32) :
    SessionReaches s fw ⟨.sync, .ready, 0, [], s.rxq⟩ := by
  refine ⟨1, s.rsp, s.last, [], ?_, by simp [OutcomeReported]⟩
  rw [runSteps_one, step_of_start hsch, startSession_free (s := s.withSchedule []) hph hs hp hfw]
  simp only [State.atPoint, State.withSchedule, List.append_nil, ← hs, ← hp]

section
variable (hacc : s.acc.length < 18)
include hacc

/-- The marker goes out (R129). -/
theorem SessionReaches.mark (hc : SessionReaches s fw ⟨.sync, .ready, off, sent, q⟩) :
    SessionReaches s fw ⟨.sync, .marked, off, sent ++ syncMarker, q⟩ :=
  hc.step fun r l rs hrep => by
    refine ⟨some .done, l, rs, (step_of_mark (s := s.atPoint fw _ r l rs) rfl hacc rfl rfl rfl).trans ?_, hrep⟩
    simp only [State.atPoint, List.append_assoc]

/-- The awaited or expected packet is taken (R126, R128). -/
theorem SessionReaches.receive {w : Pend} {op : Byte} (hc : SessionReaches s fw ⟨h, ph, off, sent, opPacket op :: q⟩)
    (hn : (s.atPoint fw ⟨h, ph, off, sent, opPacket op :: q⟩ none none []).sessionNext = some (.receive w))
    (hw : w = .await op ∨ w = .expect op) : SessionReaches s fw ⟨afterReceive h, .ready, off, sent, q⟩ :=
  hc.step fun r l rs hrep => by
    obtain ⟨r', hnext⟩ := step_of_receive (s := s.atPoint fw _ r l rs) rfl hacc rfl rfl hn hw rfl
    refine ⟨some r', l, _, hnext.trans ?_, hrep.move (State.hst_of_sessionNext hn) _⟩
    exact congrArg _ (s.atPoint_enter fw ⟨h, ph, off, sent, q⟩ (some r') l rs (afterReceive h))

/-- A packet of the session is transmitted, and again per request, until the ACK (R110, R127). -/
theorem SessionReaches.send {payload : List Byte} {r : Nat → Nat} {k : Nat}
    (hc : SessionReaches s fw ⟨h, ph, off, sent, ackReplies r k ++ q⟩)
    (hn : (s.atPoint fw ⟨h, ph, off, sent, ackReplies r k ++ q⟩ none none []).sessionNext = some (.send payload)) :
    SessionReaches s fw ⟨h, .sending, off, sent ++ copies r k payload, q⟩ :=
  hc.run fun rsp l rs hrep => by
    obtain ⟨p, hb⟩ := State.packet_of_sessionNext hn
    have hno : ackPkt ∉ List.replicate (r k) retxPkt := fun hm => ackPkt_ne_retxPkt (List.eq_of_mem_replicate hm)
    have hissue := step_of_send (s := s.atPoint fw _ rsp l rs) rfl hacc rfl rfl hb hn
    have hqueue : ackReplies r k ++ q = List.replicate (r k) retxPkt ++ ackPkt :: q := by simp [ackReplies]
    have hwait := (runSteps_add _ ((runSteps_one _).trans hissue)).trans
      (runSteps_wait (rest := q) rfl hacc rfl rfl hqueue hno)
    refine ⟨_, some .done, some p, rs, hwait.trans ?_, hrep⟩
    rw [copies_eq_resent hb]
    simp only [State.atPoint, List.append_assoc]

/-- The host acts on the ACK, and that brings it to the point `c` (R107, R127). -/
theorem SessionReaches.settle {c : SessionPoint} (hc : SessionReaches s fw ⟨h, .sending, off, sent, q⟩)
    (hsent : ∀ r l rs, OutcomeReported h rs → ∃ rs',
      (s.atPoint fw ⟨h, .sending, off, sent, q⟩ r l rs).sent = s.atPoint fw c r l rs' ∧ OutcomeReported c.hst rs') :
    SessionReaches s fw c :=
  hc.step fun r l rs hrep =>
    let ⟨rs', hpoint, hrep'⟩ := hsent r l rs hrep
    have hstep := step_of_sending (s := s.atPoint fw ⟨h, .sending, off, sent, q⟩ r l rs) rfl hacc rfl rfl rfl
    ⟨r, l, rs', hstep.trans (congrArg _ hpoint), hrep'⟩

/-- After a packet that is no chunk comes the next state of the table (R131, R133, R135). -/
theorem SessionReaches.advance (hc : SessionReaches s fw ⟨h, .sending, off, sent, q⟩)
    (hlive : h ≠ .done ∧ h ≠ .failed) (hsent : ∀ u : State, u.hst = h → u.sent = u.enter h') :
    SessionReaches s fw ⟨h', .ready, off, sent, q⟩ :=
  hc.settle hacc fun r l rs hrep =>
    ⟨_, (hsent _ rfl).trans (s.atPoint_enter fw _ r l rs h'), hrep.move hlive h'⟩

/-- After a chunk that is not the last comes the check for Ready-For-Data (R137). -/
theorem SessionReaches.chunkMore (hc : SessionReaches s fw ⟨.receiveFirmware, .sending, off, sent, q⟩)
    (hmore : off + 16 < fw.length) : SessionReaches s fw ⟨.receiveFirmware, .acked, off + 16, sent, q⟩ :=
  hc.settle hacc fun r l rs hrep => by
    refine ⟨_, ?_, hrep.remaining (fw.length - (off + 16))⟩
    rw [State.sent_chunk_more rfl hmore, State.atPoint_withOff]
    rfl

/-- After the last chunk comes the await of Update-Success (R137). -/
theorem SessionReaches.chunkLast (hc : SessionReaches s fw ⟨.receiveFirmware, .sending, off, sent, q⟩)
    (hoff : off ≤ fw.length) (hlast : fw.length ≤ off + 16) :
    SessionReaches s fw ⟨.updateSuccess, .ready, fw.length, sent, q⟩ :=
  hc.settle hacc fun r l rs hrep => by
    refine ⟨_, ?_, (hrep.remaining (fw.length - fw.length)).move ⟨by simp, by simp⟩ .updateSuccess⟩
    rw [State.sent_chunk_last rfl hoff hlast, State.atPoint_withOff, State.atPoint_enter]
    rfl

/-- The last `n + 1` chunks of the image, from OFF on, the first of them the session's `k`-th SENDACKED (R137, R138). -/
theorem SessionReaches.chunks {r : Nat → Nat} {k n : Nat} (hfirst : off + 16 * n < fw.length)
    (hlast : fw.length ≤ off + 16 * (n + 1))
    (hc : SessionReaches s fw ⟨.receiveFirmware, .ready, off, sent, chunkReplies s.cfg.ops r (n + 1) k ++ q⟩) :
    SessionReaches s fw ⟨.updateSuccess, .ready, fw.length,
      sent ++ (List.range (n + 1)).flatMap fun j => copies r (k + j) (fwChunkAt fw (off + 16 * j)), q⟩ := by
  induction n generalizing off k sent with
  | zero =>
    have hacked := hc.send (payload := fwChunkAt fw off) hacc rfl
    simpa using hacked.chunkLast hacc (by omega) (by omega)
  | succ n ih =>
    have hqueue : chunkReplies s.cfg.ops r (n + 2) k ++ q = ackReplies r k ++
        (opPacket s.cfg.ops.readyForData :: (chunkReplies s.cfg.ops r (n + 1) (k + 1) ++ q)) := by
      simp [chunkReplies]
    rw [hqueue] at hc
    have hacked := (hc.send hacc rfl).chunkMore hacc (by omega)
    have hnext := hacked.receive hacc rfl (.inr rfl)
    have hbytes : (List.range (n + 2)).flatMap (fun j => copies r (k + j) (fwChunkAt fw (off + 16 * j))) =
        copies r k (fwChunkAt fw off) ++ (List.range (n + 1)).flatMap fun j =>
          copies r (k + 1 + j) (fwChunkAt fw (off + 16 + 16 * j)) := by
      have hshift (j : Nat) : k + 1 + j = k + (j + 1) ∧ off + 16 + 16 * j = off + 16 * (j + 1) := by omega
      simp only [List.range_succ_eq_map (n := n + 1), List.flatMap_cons, List.flatMap_map, hshift]
      rfl
    rw [hbytes, ← List.append_assoc]
    exact ih (by omega) (by omega) hnext

end

end

/-- The replies of a session, the next one first. -/
theorem sessionReplies_eq (o : Opcodes) (r : Nat → Nat) (fw : List Byte) : sessionReplies o r fw =
    opPacket o.seqObserved :: opPacket o.updateReq :: (ackReplies r 0 ++
      opPacket o.deviceIdReq :: (ackReplies r 1 ++ opPacket o.fwLengthReq :: (ackReplies r 2 ++
        opPacket o.readyForData :: (chunkReplies o r (chunkCount fw) 3 ++ [opPacket o.updateSuccess])))) := by
  simp [sessionReplies]

/-- The chunks of an image: every one but the last full, the last not empty (R138). -/
theorem chunkCount_spec {fw : List Byte} (hfw : 1 ≤ fw.length) :
    ∃ n, chunkCount fw = n + 1 ∧ 16 * n < fw.length ∧ fw.length ≤ 16 * (n + 1) :=
  ⟨chunkCount fw - 1, by simp only [chunkCount, payloadMax]; omega⟩

/-- A whole session, its replies being queued, reaches Done (R129 to R140, R145). -/
theorem SessionReaches.done {s : State} {fw : List Byte} {r : Nat → Nat} (hacc : s.acc.length < 18)
    (hfw : 1 ≤ fw.length) (hc : SessionReaches s fw ⟨.sync, .ready, 0, [], sessionReplies s.cfg.ops r fw⟩) :
    SessionReaches s fw ⟨.done, .ready, fw.length, sessionBytes s.cfg.ops r fw, []⟩ := by
  obtain ⟨n, hn, hfirst, hlast⟩ := chunkCount_spec hfw
  rw [sessionReplies_eq, hn] at hc
  have hwaitForUpdateRes : SessionReaches s fw ⟨.waitForUpdateRes, .ready, 0, syncMarker, _⟩ :=
    ((hc.mark hacc).receive hacc rfl (.inl rfl)).receive hacc rfl (.inl rfl)
  have hdeviceIdReq : SessionReaches s fw ⟨.deviceIdReq, .ready, 0, _, _⟩ :=
    (hwaitForUpdateRes.send (payload := [s.cfg.ops.updateRes]) hacc rfl).advance hacc (by decide)
      fun _ => State.sent_updateRes
  have hdeviceIdRes : SessionReaches s fw ⟨.deviceIdRes, .ready, 0, _, _⟩ := hdeviceIdReq.receive hacc rfl (.inl rfl)
  have hfwLengthReq : SessionReaches s fw ⟨.fwLengthReq, .ready, 0, _, _⟩ :=
    (hdeviceIdRes.send (payload := deviceIdPayload s.cfg.ops) hacc rfl).advance hacc (by decide)
      fun _ => State.sent_deviceIdRes
  have hfwLengthRes : SessionReaches s fw ⟨.fwLengthRes, .ready, 0, _, _⟩ := hfwLengthReq.receive hacc rfl (.inl rfl)
  have heraseApplication : SessionReaches s fw ⟨.eraseApplication, .ready, 0, _, _⟩ :=
    (hfwLengthRes.send (payload := fwLengthPayload s.cfg.ops (BitVec.ofNat 32 fw.length)) hacc rfl).advance hacc
      (by decide) fun _ => State.sent_fwLengthRes
  have hreceiveFirmware : SessionReaches s fw ⟨.receiveFirmware, .ready, 0, _, _⟩ :=
    heraseApplication.receive hacc rfl (.inl rfl)
  have hupdateSuccess := hreceiveFirmware.chunks hacc (by omega) (by omega)
  have hdone : SessionReaches s fw ⟨.done, .ready, fw.length, _, _⟩ := hupdateSuccess.receive hacc rfl (.inl rfl)
  simpa only [sessionBytes, hn, Nat.zero_add] using hdone

end Sys2Proof.Machine

open Sys2Proof Sys2Proof.Machine

/-- Settles O36: each clause is the awaited packet's consumption in its state. -/
theorem awaitedPacketAdvancesHost : Obligations.AwaitedPacketAdvancesHost := by
  intro s hs hph
  have hmoves {op : Byte} {h h' : HostState} (hnext : afterReceive h = h') (hne : h' ≠ h) (hst : s.hst = h)
      (hp : s.pend = some (.await op)) := consume_awaited_moves hs hph hst hp hnext hne
  exact ⟨hmoves rfl (by decide), hmoves rfl (by decide), hmoves rfl (by decide), hmoves rfl (by decide),
    hmoves rfl (by decide), hmoves rfl (by decide)⟩

/-- Settles O37: Ready-For-Data keeps the host in its state; any other packet is consumed as a mismatch. -/
theorem expectedPacketOrFailure : Obligations.ExpectedPacketOrFailure := by
  refine fun s q hs hph hst hp => ⟨(consume_expected hs hph hp).trans ?goesOn, fun hq => ?fails⟩
  case goesOn =>
    have hstays : afterReceive s.hst = (s.release .ok).hst := by simp [hst, afterReceive]
    rw [hstays, State.enter_self]
    rfl
  case fails =>
    rw [exec_decodePacket, consume_unexpected hs hph hp hq, State.enter_ne (by simp [hst])]
    rfl

/-- Settles O38: the host's turn takes the head, and the AWAIT goes on. -/
theorem unmatchedPacketIsDropped : Obligations.UnmatchedPacketIsDropped := by
  intro s op q rest hs hp hq hsch hacc hne
  calc step s
      = poll s := step_of_pend hsch hacc hs hp
    _ = consume q (s.withRxq rest) := poll_cons hq
    _ = hostAct (.await op) q (s.withRxq rest) := consume_idle (s := s.withRxq rest) hs hp q
    _ = .next (s.withRxq rest) := hostAct_await_ne hne _

/-- Settles O39: each row is the SENDACKED its session issues next. -/
theorem sessionPacketsAreTransmitted : Obligations.SessionPacketsAreTransmitted := by
  intro s hs hp hph
  have hsend {payload : List Byte} (hn : s.sessionNext = some (.send payload)) :
      ∃ p, buildPacket payload = some p ∧ hostSend payload s = .next { s with
        txlog := s.txlog ++ p.bytes, last := some p, txs := .wait, rsp := none, phase := .sending } :=
    let ⟨p, hb⟩ := State.packet_of_sessionNext hn
    ⟨p, hb, hostSend_session hs hp hb hn⟩
  refine ⟨fun hst => hsend (by simp only [State.sessionNext, hph, hst]),
    fun hst => hsend (by simp only [State.sessionNext, hph, hst]; rfl), fun hst hlen => ?fwLength,
    fun hst => hsend (by simp only [State.sessionNext, hph, hst]; rfl)⟩
  case fwLength =>
    have hpayload : fwLengthPayload s.cfg.ops (BitVec.ofNat 32 s.fw.length) =
        s.cfg.ops.fwLengthRes :: be32 s.fw.length := by
      rw [fwLengthPayload, BitVec.toNat_ofNat, Nat.mod_eq_of_lt hlen]
    rw [← hpayload]
    exact hsend (by simp only [State.sessionNext, hph, hst])

/-- Settles O42: the session's receive polls RXQ, and a taken head is what its rows say. -/
theorem sessionReceivesAreIssued : Obligations.SessionReceivesAreIssued := by
  intro s w hs hp _ hn
  rw [exec_sessionInstr_receive hn, hostReceive_session hs hp hn]
  refine ⟨fun hq => poll_nil hq, fun q rest hq => ?_⟩
  calc poll ((s.withPhase .waiting).suspend w)
      = consume q (((s.withPhase .waiting).suspend w).withRxq rest) := poll_cons hq
    _ = exec (decodeHostIn s.cfg.ops q) (((s.withPhase .waiting).suspend w).withRxq rest) :=
        (exec_decodeHostIn q (((s.withPhase .waiting).suspend w).withRxq rest)).symm

/-- Settles O43: the step is what the host does on the ACK, state by state. -/
theorem hostAdvancesAfterAck : Obligations.HostAdvancesAfterAck := by
  intro s hs hp hph hsch hacc
  rw [step_of_sending hsch hacc hs hp hph]
  have henter {h : HostState} (hsent : s.sent = s.enter h) (hne : h ≠ s.hst) : Host.Outcome.next s.sent =
      (.next { s with phase := .ready, hst := h, reports := s.reports ++ [.moved h] } : Outcome) := by
    rw [hsent, State.enter_ne hne]
  refine ⟨fun hst => henter (State.sent_updateRes hst) (by simp [hst]),
    fun hst => henter (State.sent_deviceIdRes hst) (by simp [hst]),
    fun hst => henter (State.sent_fwLengthRes hst) (by simp [hst]), fun hst hmore => ?more,
    fun hst hoff hlast => ?last⟩
  case more =>
    rw [State.sent_chunk_more hst hmore]
    rfl
  case last =>
    rw [State.sent_chunk_last hst hoff hlast, State.enter_ne (by simp [hst])]
    simp [State.withOff]

/-- Settles O44: the payloads one by one, a chunk being what the invariant leaves of the image. -/
theorem sessionPayloadsFit : Obligations.SessionPayloadsFit := by
  intro s payload hinv hn
  have hle := State.payload_le_of_sessionNext hn
  refine ⟨?nonempty, hle, fun hst => ?chunk⟩
  case nonempty =>
    rcases State.payload_of_sessionNext hn with ⟨-, rfl⟩ | ⟨-, rfl⟩ | ⟨-, rfl⟩ | ⟨hst, rfl⟩
    · simp
    · simp [deviceIdPayload]
    · simp [fwLengthPayload]
    · have := hinv.remains hst
      rw [fwChunkAt_length]
      omega
  case chunk =>
    obtain rfl : payload = fwChunkAt s.fw s.off := by simpa [hst] using State.payload_of_sessionNext hn
    exact ⟨fwChunkAt_length .., fun _ => fwChunkAt_getElem?⟩

/-- Settles O46: the start's four outcomes. -/
theorem sessionStart : Obligations.SessionStart := by
  intro s fw es hsch
  rw [step_of_start hsch]
  exact ⟨fun hph hs hp h1 h2 => startSession_free hph hs hp ⟨h1, h2⟩,
    fun hph hs hp hfw => startSession_domain hph hs hp (by omega), startSession_busy (s := s.withSchedule es),
    startSession_running (s := s.withSchedule es)⟩

/-- Settles O47: the run of the session, point by point, and what its last point says. -/
theorem successfulSession : Obligations.SuccessfulSession := by
  intro s fw r h1 h2 hsch hph hs hp hacc hq
  have hstart := SessionReaches.start hsch hph hs hp ⟨h1, h2⟩
  rw [hq] at hstart
  obtain ⟨n, rsp, l, rs, hrun, hsuccess, hfailure⟩ := hstart.done hacc h1
  refine ⟨n, _, hrun, rfl, rfl, rfl, rfl, rfl, rfl, rfl, ?_, ?_⟩
  · rw [State.atPoint, List.count_append, hsuccess, if_pos rfl]
  · rw [State.atPoint, List.count_append, hfailure, if_neg (by simp), Nat.add_zero]

end

