-- ==== Sys2Proof/Proofs/Exceptions.lean ====
section
/-! SUPPORT. The proofs of the exceptions' statements (`spec/60_exceptions.md`): how a session ends, what records a
fault, and that the framer and the consumers do not disturb each other. -/

namespace Sys2Proof.Machine

/-! ### The framer beside a consumer -/

/-- With an unbounded queue an arriving chunk may be put after or before an operation that leaves ACC alone and does
not see the tail of RXQ. -/
theorem receiveChunk_comm {op : State → Outcome} {chunk : List Byte} {s t u : State} (hq : s.cfg.qdepth = none)
    (hacc : t.acc = s.acc) (hcfg : t.cfg = s.cfg)
    (hop : ∀ acc ps, op { s with acc := acc, rxq := s.rxq ++ ps } = .next { t with acc := acc, rxq := t.rxq ++ ps })
    (h : receiveChunk chunk s = .next u) : receiveChunk chunk t = op u := by
  obtain ⟨ps, acc, hbytes, hshort, rfl⟩ := receiveChunk_framing h
  rw [hop, receiveChunk_of_framing (hacc ▸ hbytes) hshort (State.room_of_unbounded (hcfg ▸ hq) _)]

/-- The controller's act on a packet it has taken reads neither ACC nor RXQ (R106). -/
theorem controllerAct_framed {q : Packet} {s t : State} (h : controllerAct q s = .next t) (acc : List Byte)
    (ps : List Packet) : controllerAct q { s with acc := acc, rxq := s.rxq ++ ps } =
      .next { t with acc := acc, rxq := t.rxq ++ ps } := by
  rcases controllerAct_next h with ⟨rfl, rfl⟩ | ⟨rfl, p, hl, rfl⟩ | ⟨ha, hr, rfl⟩
  · exact controllerAct_ack _
  · exact controllerAct_retx (s := { s with acc := acc, rxq := s.rxq ++ ps }) hl
  · exact controllerAct_other ha hr _

theorem TxState.idle_or_wait (x : TxState) : x = .idle ∨ x = .wait := by
  cases x <;> decide

/-- A controller that is not waiting, or has a packet to take, does not see what is queued behind it (R106). -/
theorem exec_waitstep_framed {s t : State} {q : Packet} {rest : List Packet} (hq : s.rxq = q :: rest)
    (h : exec .waitstep s = .next t) : t.acc = s.acc ∧ t.cfg = s.cfg ∧ ∀ acc ps,
      exec .waitstep { s with acc := acc, rxq := s.rxq ++ ps } = .next { t with acc := acc, rxq := t.rxq ++ ps } := by
  obtain ⟨hacc, -⟩ := exec_queue (by simp) (by simp) h
  obtain ⟨-, hcfg, -⟩ := exec_parameters h
  refine ⟨hacc, hcfg, fun acc ps => ?_⟩
  rcases s.txs.idle_or_wait with hs | hs
  · obtain rfl : s = t := Host.Outcome.next.inj ((exec_waitstep_idle hs).symm.trans h)
    exact exec_waitstep_idle (s := { s with acc := acc, rxq := s.rxq ++ ps }) hs
  · rw [exec_waitstep_controllerAct hs hq] at h
    have hq' : s.rxq ++ ps = q :: (rest ++ ps) := by rw [hq, List.cons_append]
    rw [exec_waitstep_controllerAct (s := { s with acc := acc, rxq := s.rxq ++ ps }) hs hq']
    exact controllerAct_framed h acc ps

/-- A TAKE that has a packet to take does not see what is queued behind it (R94). -/
theorem exec_take_framed {s t : State} {q : Packet} {rest : List Packet} (hq : s.rxq = q :: rest)
    (h : exec .take s = .next t) : t.acc = s.acc ∧ t.cfg = s.cfg ∧ ∀ acc ps,
      exec .take { s with acc := acc, rxq := s.rxq ++ ps } = .next { t with acc := acc, rxq := t.rxq ++ ps } := by
  obtain ⟨hs, hp, -⟩ := issueReceive_next h
  obtain rfl := Host.Outcome.next.inj ((issueReceive_take_cons hs hp hq).symm.trans h)
  exact ⟨rfl, rfl, fun acc ps => issueReceive_take_cons hs hp (by rw [hq, List.cons_append])⟩

/-! ### What records a fault -/

theorem State.SamePlaceAside.faults {s t : State} (h : s.SamePlaceAside t) : t.faults = s.faults := by
  obtain ⟨_, _, _, _, rfl⟩ := h
  rfl

/-- The host's act on a packet records no fault (R150). -/
theorem hostAct_faults {w : Pend} {q : Packet} {s t : State} (h : hostAct w q s = .next t) :
    t.faults = s.faults := by
  rcases hostAct_next h with rfl | ⟨-, rfl⟩ | ⟨_, -, -, rfl⟩ | ⟨_, -, -, rfl⟩ | ⟨_, -, -, rfl⟩
  · rfl
  · rfl
  all_goals exact (State.received_aside _ _).faults

/-- The controller's act on a packet records no fault (R150). -/
theorem controllerAct_faults {q : Packet} {s t : State} (h : controllerAct q s = .next t) :
    t.faults = s.faults := by
  rcases controllerAct_next h with ⟨-, rfl⟩ | ⟨-, p, -, rfl⟩ | ⟨-, -, rfl⟩ <;> rfl

/-- An instruction keeps the recorded faults, or is a BUILD of more than 16 bytes, alone or inside a SENDACKED
(R75, R150). -/
theorem exec_faults {i : Instr} {s t : State} (h : exec i s = .next t) :
    t.faults = s.faults ∨ ∃ bs : List Byte, (i = .build bs ∨ i.sentPayload s.cfg.ops = some bs) ∧ 16 < bs.length ∧
      t = s.raise (.contractViolation bs.length) := by
  cases exec_ran h with
  | raised bs hi hl => exact .inr ⟨bs, hi, hl, rfl⟩
  | held | replied | framed => exact .inl rfl
  | sent s' p hs hp h' =>
    rcases h' with ⟨-, rfl⟩ | ⟨payload, -, -, rfl⟩
    · exact .inl rfl
    · exact .inl (s.begin_aside _ _).faults
  | wrote s' bs hs hp h' =>
    rcases h' with ⟨-, rfl⟩ | ⟨-, -, rfl⟩
    · exact .inl rfl
    · exact .inl (s.begin_aside _ _).faults
  | controlled s' q hs h' hc =>
    rcases h' with ⟨-, rfl⟩ | ⟨-, rest, -, rfl⟩
    · exact .inl (controllerAct_faults hc)
    · exact .inl (controllerAct_faults (s := s.withRxq rest) hc)
  | suspended s' w hs hp hi h' => exact .inl (aside_of_begun h').faults
  | took s' w q rest hs hp hi h' hq ha => exact .inl ((hostAct_faults ha).trans (aside_of_begun h').faults)
  | received w q hs hp hi ha => exact .inl (hostAct_faults ha)

/-! ### How a session ends -/

section
variable {s : State}

/-- Acting on a completed TRANSMIT leaves the host in its state, ends ReceiveFirmware, or enters one of the three
states after a response (R131, R133, R135, R137). -/
theorem State.sent_hst (s : State) : s.sent.hst = s.hst ∨
    (s.hst = .receiveFirmware ∧ s.sent.hst = .updateSuccess) ∨
    s.sent.hst ∈ [HostState.deviceIdReq, .fwLengthReq, .eraseApplication] := by
  unfold State.sent
  split
  case h_4 hst =>
    dsimp only
    split
    · exact .inl rfl
    · exact .inr (.inl ⟨hst, rfl⟩)
  case h_5 => exact .inl rfl
  all_goals exact .inr (.inr (by simp))

/-- The same of a host that first sees whether its TRANSMIT has completed. -/
theorem State.settle_hst (s : State) : s.settle.hst = s.hst ∨
    (s.hst = .receiveFirmware ∧ s.phase = .sending ∧ s.settle.hst = .updateSuccess) ∨
    s.settle.hst ∈ [HostState.deviceIdReq, .fwLengthReq, .eraseApplication] := by
  unfold State.settle
  split
  case isTrue hph => exact s.sent_hst.imp_right (Or.imp_left fun ⟨hst, hsent⟩ => ⟨hst, hph.1, hsent⟩)
  case isFalse => exact .inl rfl

theorem State.begin_hst (s : State) (op : SessionOp) (ph : Phase) : (s.begin op ph).hst = s.settle.hst := by
  unfold State.begin
  split <;> rfl

/-- An operation that a free host begins ends no session. -/
theorem State.begin_hst_of_over {op : SessionOp} {ph : Phase} (h : (s.begin op ph).sessionOver) :
    (s.begin op ph).hst = s.hst := by
  rw [State.sessionOver, State.begin_hst] at h
  rw [State.begin_hst]
  rcases s.settle_hst with hst | ⟨-, -, hst⟩ | hst
  · exact hst
  · simp [hst] at h
  · rcases h with h | h <;> simp [h] at hst

theorem hst_of_begun_of_over {s' : State} {c : Prop} {op : SessionOp} {ph : Phase}
    (h' : s' = s ∧ c ∨ s' = s.begin op ph) (h : s'.sessionOver) : s'.hst = s.hst := by
  rcases h' with ⟨rfl, -⟩ | rfl
  · rfl
  · exact State.begin_hst_of_over h

/-- The two ends of a session: the state it ends from, its outcome, the receive that ends it, and that receive's
completion (R139, R140, R143). -/
inductive SessionEnd (o : Opcodes) : HostState → HostState → Pend → Reply → Prop
  | failed : SessionEnd o .receiveFirmware .failed (.expect o.readyForData) .mismatch
  | done : SessionEnd o .updateSuccess .done (.await o.updateSuccess) .done

section
variable {o : Opcodes} {h : HostState} {w : Pend} {r : Reply}

theorem SessionEnd.of_failed (hend : SessionEnd o h .failed w r) :
    h = .receiveFirmware ∧ w = .expect o.readyForData ∧ r = .mismatch := by
  cases hend
  exact ⟨rfl, rfl, rfl⟩

theorem SessionEnd.of_done (hend : SessionEnd o h .done w r) :
    h = .updateSuccess ∧ w = .await o.updateSuccess ∧ r = .done := by
  cases hend
  exact ⟨rfl, rfl, rfl⟩

end

/-- Of the packets a state waits for, only that of UpdateSuccess ends the session (R140). -/
theorem afterReceive_over {h : HostState} (ho : afterReceive h = .done ∨ afterReceive h = .failed) :
    afterReceive h = h ∨ h = .updateSuccess := by
  revert ho
  cases h <;> decide

/-- Only ReceiveFirmware has an EXPECT (R137). -/
theorem State.hst_of_awaited_expect {op : Byte} (h : s.awaited = some (.expect op)) :
    s.hst = .receiveFirmware ∧ op = s.cfg.ops.readyForData := by
  unfold State.awaited at h
  split at h <;> simp_all

/-- The host's act on a packet ends a session only where its receive is the one that ends it: the invariant ties the
receive of a waiting host to its state. -/
theorem State.Inv.hostAct_ends {t : State} {w : Pend} {q : Packet} (hinv : s.Inv) (hp : s.pend = some w)
    (ha : hostAct w q s = .next t) (hover : t.sessionOver) : t.hst = s.hst ∨
      (s.phase = .waiting ∧ t.pend = none ∧ t.txs = s.txs ∧
        ∃ r, t.rsp = some r ∧ SessionEnd s.cfg.ops s.hst t.hst w r) := by
  by_cases hph : s.phase = .waiting
  case neg =>
    left
    rcases hostAct_next ha with rfl | ⟨-, rfl⟩ | ⟨_, -, -, rfl⟩ | ⟨_, -, -, rfl⟩ | ⟨_, -, -, rfl⟩
    · rfl
    · rfl
    all_goals rw [State.received_of_ne (by simpa using hph)]; rfl
  case pos =>
    have hawaited : s.awaited = some w := (hinv.waits hph).2.symm.trans hp
    have hreceived (r : Reply) (b : Bool) : (s.release r).received b =
        (s.release r).enter (if b then afterReceive s.hst else .failed) :=
      State.received_waiting (s := s.release r) hph b
    rcases hostAct_next ha with rfl | ⟨-, rfl⟩ | ⟨op, rfl, -, rfl⟩ | ⟨op, rfl, -, rfl⟩ | ⟨op, rfl, -, rfl⟩
    · exact .inl rfl
    · exact .inl rfl
    · rw [hreceived] at hover ⊢
      refine (afterReceive_over hover).imp_right fun hst => ⟨hph, rfl, rfl, .done, rfl, ?_⟩
      obtain rfl : s.cfg.ops.updateSuccess = op := by simpa [State.awaited, hst] using hawaited
      simpa [hst, afterReceive] using SessionEnd.done (o := s.cfg.ops)
    · rw [hreceived] at hover ⊢
      refine (afterReceive_over hover).imp_right fun hst => ?_
      exact absurd hawaited (by simp [State.awaited, hst])
    · obtain ⟨hst, rfl⟩ := State.hst_of_awaited_expect hawaited
      rw [hreceived, hst]
      exact .inr ⟨hph, rfl, rfl, .mismatch, rfl, .failed⟩

/-- A receive of a free host is its session's where the session waits once it has begun. -/
theorem State.Inv.sessionNext_of_begun {s' : State} {w : Pend} (hinv : s.Inv) (hp : s.pend = none)
    (h' : s' = s ∧ w = .take ∨ s' = s.begin (.receive w) .waiting) (hph : s'.phase = .waiting) :
    s.settle.sessionNext = some (.receive w) ∧ s'.hst = s.settle.hst := by
  rcases h' with ⟨rfl, -⟩ | rfl
  · exact absurd hp (hinv.waits hph).1
  · refine ⟨?_, s.begin_hst _ _⟩
    by_contra hn
    rw [State.begin, if_neg hn] at hph
    obtain ⟨_, _, _, _, hset⟩ := s.settle_aside
    exact (hinv.settle.waits hph).1 (by rw [hset]; exact hp)

/-- An instruction that ends a session hands the session's receive its packet, the receive being outstanding or
issued by that instruction (R143, R153). -/
theorem State.Inv.exec_ends {i : Instr} {t : State} (hinv : s.Inv) (h : exec i s = .next t) (hover : t.sessionOver) :
    t.hst = s.hst ∨ ∃ w r, t.rsp = some r ∧ t.pend = none ∧ t.txs = .idle ∧
      ((s.phase = .waiting ∧ s.pend = some w ∧ SessionEnd s.cfg.ops s.hst t.hst w r) ∨
        (s.pend = none ∧ i.receives = some w ∧ s.settle.sessionNext = some (.receive w) ∧
          SessionEnd s.cfg.ops s.settle.hst t.hst w r)) := by
  cases exec_ran h with
  | held | replied | raised | framed => exact .inl rfl
  | sent s' p hs hp h' =>
    rcases h' with ⟨-, rfl⟩ | ⟨payload, -, -, rfl⟩
    · exact .inl rfl
    · exact .inl (State.begin_hst_of_over hover)
  | wrote s' bs hs hp h' =>
    rcases h' with ⟨-, rfl⟩ | ⟨-, -, rfl⟩
    · exact .inl rfl
    · exact .inl (State.begin_hst_of_over hover)
  | controlled s' q hs h' hc => exact .inl (exec_place_of_wait h hs).1
  | suspended s' w hs hp hi h' => exact .inl (hst_of_begun_of_over (s' := s') h' hover)
  | received w q hs hp hi ha =>
    refine (hinv.hostAct_ends hp ha hover).imp_right ?_
    rintro ⟨hph, hpend, htxs, r, hrsp, hend⟩
    exact ⟨w, r, hrsp, hpend, htxs.trans hs, .inl ⟨hph, hp, hend⟩⟩
  | took s' w q rest hs hp hi h' hq ha =>
    obtain ⟨htxs', hrxq', hcfg'⟩ : s'.txs = s.txs ∧ s'.rxq = s.rxq ∧ s'.cfg = s.cfg := by
      obtain ⟨_, _, _, _, rfl⟩ := aside_of_begun h'
      exact ⟨rfl, rfl, rfl⟩
    have htaken : ((s'.suspend w).withRxq rest).Inv := (hinv.suspend_begun hs hp h').withRxq (hrxq'.trans hq)
    rcases htaken.hostAct_ends rfl ha hover with hst | ⟨hph, hpend, htxs, r, hrsp, hend⟩
    · rw [State.sessionOver, hst] at hover
      exact .inl (hst.trans (hst_of_begun_of_over (s' := s') h' hover))
    · obtain ⟨hn, hst⟩ := hinv.sessionNext_of_begun hp h' hph
      refine .inr ⟨w, r, hrsp, hpend, (htxs.trans htxs').trans hs, .inr ⟨hp, hi, hn, ?_⟩⟩
      rw [← hst, ← hcfg']
      exact hend

end

/-- The instruction that is a given AWAIT (R126). -/
theorem eq_await_of_receives {i : Instr} {op : Byte} (h : i.receives = some (.await op)) : i = .await op := by
  cases i with
  | await op' => simpa [Instr.receives] using h
  | _ => simp [Instr.receives] at h

/-- The instruction that is a given EXPECT (R128). -/
theorem eq_expect_of_receives {i : Instr} {op : Byte} (h : i.receives = some (.expect op)) : i = .expect op := by
  cases i with
  | expect op' => simpa [Instr.receives] using h
  | _ => simp [Instr.receives] at h

end Sys2Proof.Machine

open Sys2Proof Sys2Proof.Machine

/-- Settles O45: the session's end is one of two, and the issuing host is in the state its receive ends, or comes
there from ReceiveFirmware on the last ACK. -/
theorem outcomesHaveOneOrigin : Obligations.OutcomesHaveOneOrigin := by
  refine fun i s t hinv h => ⟨fun hfailed => ?failed, fun hdone => ?done⟩
  case failed =>
    rcases hinv.exec_ends h (.inr hfailed) with hst | ⟨w, r, hrsp, hpend, htxs, hcase⟩
    · exact .inl (hst.symm.trans hfailed)
    rw [hfailed] at hcase
    rcases hcase with ⟨hph, hp, hend⟩ | ⟨hp, hi, hn, hend⟩
    · obtain ⟨hst, rfl, rfl⟩ := hend.of_failed
      exact .inr ⟨hst, hrsp, hpend, htxs, .inl ⟨hph, hp⟩⟩
    · obtain ⟨hset, rfl, rfl⟩ := hend.of_failed
      have hst : s.hst = .receiveFirmware := by simpa [hset, eq_comm] using s.settle_hst
      exact .inr ⟨hst, hrsp, hpend, htxs, .inr ⟨hp, eq_expect_of_receives hi, hn⟩⟩
  case done =>
    rcases hinv.exec_ends h (.inl hdone) with hst | ⟨w, r, hrsp, hpend, htxs, hcase⟩
    · exact .inl (hst.symm.trans hdone)
    rw [hdone] at hcase
    rcases hcase with ⟨hph, hp, hend⟩ | ⟨hp, hi, hn, hend⟩
    · obtain ⟨hst, rfl, rfl⟩ := hend.of_done
      exact .inr ⟨hrsp, hpend, htxs, .inl ⟨hst, hph, hp⟩⟩
    · obtain ⟨hset, rfl, rfl⟩ := hend.of_done
      have hst : s.hst = .updateSuccess ∨ s.hst = .receiveFirmware ∧ s.phase = .sending := by
        simpa [hset, eq_comm] using s.settle_hst
      exact .inr ⟨hrsp, hpend, htxs, .inr ⟨hp, eq_await_of_receives hi, hn, hst.imp_right fun ⟨hst, hph⟩ =>
        ⟨hst, hph, hset⟩⟩⟩

/-- Settles O56: an instruction records a fault only as BUILD, which writes no element; of the other steps only reset
touches the recorded faults. -/
theorem faultsAreKept : Obligations.FaultsAreKept := by
  intro s t h
  cases step_stepped h with
  | reset es he => exact .inl ⟨es, he⟩
  | held es => exact .inr (.inl rfl)
  | settled es => exact .inr (.inl (s.withSchedule es).settle_aside.faults)
  | started fw es => exact .inr (.inl rfl)
  | ran i es hf hx =>
    rcases exec_faults hx with hkept | ⟨bs, hi, hlong, rfl⟩
    · exact .inr (.inl hkept)
    · exact .inr (.inr ⟨i, _, bs, hf, hi, hlong, rfl, rfl, rfl, rfl, rfl, rfl, rfl⟩)
  | handed w q rest es hs hp hq hf hx =>
    have ha : hostAct w q ((s.withSchedule es).withRxq rest) = .next t :=
      calc hostAct w q ((s.withSchedule es).withRxq rest)
          = consume q ((s.withSchedule es).withRxq rest) :=
            (consume_idle (s := (s.withSchedule es).withRxq rest) hs hp q).symm
        _ = exec (decodeHostIn s.cfg.ops q) ((s.withSchedule es).withRxq rest) :=
            (exec_decodeHostIn q ((s.withSchedule es).withRxq rest)).symm
        _ = .next t := hx
    exact .inr (.inl (hostAct_faults (s := (s.withSchedule es).withRxq rest) ha))

/-- Settles O57: neither consumer sees what is queued behind the head it takes. -/
theorem framerAndConsumersCommute : Obligations.FramerAndConsumersCommute := by
  intro s t u chunk hunbounded hne
  obtain ⟨q, rest, hq⟩ := List.exists_cons_of_ne_nil hne
  refine ⟨fun hwait hchunk => ?waitstep, fun htake hchunk => ?take⟩
  case waitstep =>
    obtain ⟨hacc, hcfg, hframed⟩ := exec_waitstep_framed hq hwait
    exact receiveChunk_comm hunbounded hacc hcfg hframed hchunk
  case take =>
    obtain ⟨hacc, hcfg, hframed⟩ := exec_take_framed hq htake
    exact receiveChunk_comm hunbounded hacc hcfg hframed hchunk

/-- Settles O58: what RXCHUNK and EMIT have done when they answer a next state. -/
theorem framerTouchesOnlyItsOwn : Obligations.FramerTouchesOnlyItsOwn := by
  rintro i s t (⟨chunk, rfl⟩ | rfl) h
  · obtain ⟨ps, -, -, -, rfl⟩ := receiveChunk_next h
    exact ⟨ps, rfl⟩
  · rcases emitPacket_next h with ⟨-, rfl⟩ | ⟨-, -, p, -, rfl⟩
    · exact ⟨[], by rw [List.append_nil]⟩
    · exact ⟨[p], rfl⟩

end

