-- ==== Sys2Proof/Proofs/Reset.lean ====
section
/-! SUPPORT. The proof of the reset's statement (`spec/70_reset_and_hazards.md`): the whole step of a reset event, from
every state. -/

namespace Sys2Proof.Machine

/-- Whatever is outstanding, the reset event is the next step, and no instruction runs (R170). -/
theorem step_of_reset {s : State} {es : List Event} (hsch : s.schedule = .rst :: es) :
    step s = .next (resetEvent (s.withSchedule es)) := by
  simp only [step, fetch, hsch]

end Sys2Proof.Machine

open Sys2Proof Sys2Proof.Machine

/-- Settles O52: the step is the reset event, which takes each of the nine fields from the reset state. -/
theorem resetEventClearsAll : Obligations.ResetEventClearsAll := by
  intro s es hsch
  exact ⟨_, step_of_reset hsch, rfl, rfl, rfl, rfl, rfl, rfl, rfl, rfl, rfl⟩

end
